-- ==== Sys2Proof/Word.lean ====
section
/-! DEFINITION. The word types of the block (00_scope.md R8, R12). -/

namespace Sys2Proof

/-- A 32-bit pattern: a register, the pc, an address on its way to memory, an instruction word
(00_scope.md R8, R13). -/
abbrev Word := BitVec 32

/-- One byte of memory (00_scope.md R12). -/
abbrev Byte := BitVec 8

/-- A general register's number, 0 to 31 (10_state.md R21). -/
abbrev Reg := Fin 32

end Sys2Proof
end

