-- ==== Sys2Proof/Syntax.lean ====
section
/-! DEFINITION. The instructions: one constructor per row of spec/opcode_table.json (30_encoding.md R100).
Operands stand as the assembler notation of 30_encoding.md R104 has them: register numbers, the raw 12-bit I
immediate (extended at use, R94), the raw 20-bit upper immediate (R98), 5-bit shift amounts, and for stores,
branches and the jump the reassembled signed byte offset (R95 to R97) as a 32-bit pattern. -/

namespace Sys2Proof

inductive Instr where
  /-- LUI rd, imm20 (46_upper_immediate.md R215). -/
  | lui (rd : Reg) (imm : BitVec 20)
  /-- JAL rd, off (45_jumps.md R205). -/
  | jal (rd : Reg) (off : Word)
  /-- BEQ rs1, rs2, off (44_branches.md R191). -/
  | beq (rs1 rs2 : Reg) (off : Word)
  /-- BNE rs1, rs2, off (R192). -/
  | bne (rs1 rs2 : Reg) (off : Word)
  /-- BLT rs1, rs2, off (R193). -/
  | blt (rs1 rs2 : Reg) (off : Word)
  /-- BGE rs1, rs2, off (R194). -/
  | bge (rs1 rs2 : Reg) (off : Word)
  /-- BLTU rs1, rs2, off (R195). -/
  | bltu (rs1 rs2 : Reg) (off : Word)
  /-- BGEU rs1, rs2, off (R196). -/
  | bgeu (rs1 rs2 : Reg) (off : Word)
  /-- LB rd, imm(rs1) (42_loads.md R161). -/
  | lb (rd rs1 : Reg) (imm : BitVec 12)
  /-- LH rd, imm(rs1) (R162). -/
  | lh (rd rs1 : Reg) (imm : BitVec 12)
  /-- LW rd, imm(rs1) (R163). -/
  | lw (rd rs1 : Reg) (imm : BitVec 12)
  /-- LBU rd, imm(rs1) (R164). -/
  | lbu (rd rs1 : Reg) (imm : BitVec 12)
  /-- LHU rd, imm(rs1) (R165). -/
  | lhu (rd rs1 : Reg) (imm : BitVec 12)
  /-- SB rs2, off(rs1), the store-byte instruction (43_stores.md R176). -/
  | sb (rs2 rs1 : Reg) (off : Word)
  /-- SH rs2, off(rs1) (R177). -/
  | sh (rs2 rs1 : Reg) (off : Word)
  /-- SW rs2, off(rs1) (R178). -/
  | sw (rs2 rs1 : Reg) (off : Word)
  /-- ADDI rd, rs1, imm (41_alu_immediate.md R141). -/
  | addi (rd rs1 : Reg) (imm : BitVec 12)
  /-- SLTI rd, rs1, imm (R142). -/
  | slti (rd rs1 : Reg) (imm : BitVec 12)
  /-- SLTIU rd, rs1, imm (R143). -/
  | sltiu (rd rs1 : Reg) (imm : BitVec 12)
  /-- XORI rd, rs1, imm (R144). -/
  | xori (rd rs1 : Reg) (imm : BitVec 12)
  /-- ORI rd, rs1, imm (R145). -/
  | ori (rd rs1 : Reg) (imm : BitVec 12)
  /-- ANDI rd, rs1, imm (R146). -/
  | andi (rd rs1 : Reg) (imm : BitVec 12)
  /-- SLLI rd, rs1, shamt (R147). -/
  | slli (rd rs1 : Reg) (shamt : BitVec 5)
  /-- SRLI rd, rs1, shamt (R148). -/
  | srli (rd rs1 : Reg) (shamt : BitVec 5)
  /-- SRAI rd, rs1, shamt (R149). -/
  | srai (rd rs1 : Reg) (shamt : BitVec 5)
  /-- ADD rd, rs1, rs2 (40_alu_register.md R121). -/
  | add (rd rs1 rs2 : Reg)
  /-- SUB rd, rs1, rs2 (R122). -/
  | sub (rd rs1 rs2 : Reg)
  /-- SLL rd, rs1, rs2 (R123). -/
  | sll (rd rs1 rs2 : Reg)
  /-- SLT rd, rs1, rs2 (R124). -/
  | slt (rd rs1 rs2 : Reg)
  /-- SLTU rd, rs1, rs2 (R125). -/
  | sltu (rd rs1 rs2 : Reg)
  /-- XOR rd, rs1, rs2 (R126). -/
  | xor (rd rs1 rs2 : Reg)
  /-- SRL rd, rs1, rs2 (R127). -/
  | srl (rd rs1 rs2 : Reg)
  /-- SRA rd, rs1, rs2 (R128). -/
  | sra (rd rs1 rs2 : Reg)
  /-- OR rd, rs1, rs2 (R129). -/
  | or (rd rs1 rs2 : Reg)
  /-- AND rd, rs1, rs2 (R130). -/
  | and (rd rs1 rs2 : Reg)
  /-- SYSTEM, every word of opcode 0x73; the fields are decoded and ignored (47_system.md R220). -/
  | system (rd : Reg) (funct3 : BitVec 3) (rs1 : Reg) (imm : BitVec 12)
  /-- OP2A, every word of opcode 0x2A, decoded as R-type (48_op2a_unassigned.md R230). -/
  | op2a (rd : Reg) (funct3 : BitVec 3) (rs1 rs2 : Reg) (funct7 : BitVec 7)
  deriving DecidableEq, Repr

end Sys2Proof
end

