-- ==== Sys2Proof/WellFormed.lean ====
section
/-! DEFINITION. Which instruction terms an encoding exists for. Register numbers, raw immediates and shift amounts
have the width of their field, so only the reassembled offsets need a check: 30_encoding.md R95 (store), R96 (branch)
and R97 (jump) give each its signed range, and the last two are even. -/

namespace Sys2Proof

/-- A store offset: −2048 .. 2047 (30_encoding.md R95). -/
def storeOffsetOk (off : Word) : Bool :=
  decide (-2048 ≤ off.toInt) && decide (off.toInt ≤ 2047)

/-- A branch offset: even, −4096 .. 4094 (30_encoding.md R96). -/
def branchOffsetOk (off : Word) : Bool :=
  decide (-4096 ≤ off.toInt) && decide (off.toInt ≤ 4094) && !off.getLsbD 0

/-- A jump offset: even, −1048576 .. 1048574 (30_encoding.md R97). -/
def jumpOffsetOk (off : Word) : Bool :=
  decide (-1048576 ≤ off.toInt) && decide (off.toInt ≤ 1048574) && !off.getLsbD 0

def Instr.wellFormed : Instr → Bool
  | .lui _ _ => true
  | .jal _ off => jumpOffsetOk off
  | .beq _ _ off => branchOffsetOk off
  | .bne _ _ off => branchOffsetOk off
  | .blt _ _ off => branchOffsetOk off
  | .bge _ _ off => branchOffsetOk off
  | .bltu _ _ off => branchOffsetOk off
  | .bgeu _ _ off => branchOffsetOk off
  | .lb _ _ _ => true
  | .lh _ _ _ => true
  | .lw _ _ _ => true
  | .lbu _ _ _ => true
  | .lhu _ _ _ => true
  | .sb _ _ off => storeOffsetOk off
  | .sh _ _ off => storeOffsetOk off
  | .sw _ _ off => storeOffsetOk off
  | .addi _ _ _ => true
  | .slti _ _ _ => true
  | .sltiu _ _ _ => true
  | .xori _ _ _ => true
  | .ori _ _ _ => true
  | .andi _ _ _ => true
  | .slli _ _ _ => true
  | .srli _ _ _ => true
  | .srai _ _ _ => true
  | .add _ _ _ => true
  | .sub _ _ _ => true
  | .sll _ _ _ => true
  | .slt _ _ _ => true
  | .sltu _ _ _ => true
  | .xor _ _ _ => true
  | .srl _ _ _ => true
  | .sra _ _ _ => true
  | .or _ _ _ => true
  | .and _ _ _ => true
  | .system _ _ _ _ => true
  | .op2a _ _ _ _ _ => true

end Sys2Proof
end

