-- ==== Sys2Proof/Decode.lean ====
section
/-! DEFINITION. The Sign-Extension Utility, the Instruction Decoder (the six-way format multiplexer), the Immediate
Reassembler, the sub-opcode dispatch of words to instructions, the encoder, and the opcode table as data
(00_scope.md R14; 30_encoding.md R80 to R101). -/

namespace Sys2Proof

/-! ### The Sign-Extension Utility (00_scope.md R14) -/

/-- `sext_N(v)`: the low N bits of v as a two's-complement number, extended to 32 bits; the bits above are ignored. -/
def sext (n : Nat) (v : Word) : Word := (v.setWidth n).signExtend 32

/-- `zext_N(v)`: the low N bits of v, zeros above. -/
def zext (n : Nat) (v : Word) : Word := (v.setWidth n).setWidth 32

/-! ### Fields and bytes -/

/-- The register number a 5-bit field names (10_state.md R21: all 32 exist). -/
def regOfBits (b : BitVec 5) : Reg := ⟨b.toNat, b.isLt⟩

/-- The 5-bit field of a register number. -/
def bitsOfReg (r : Reg) : BitVec 5 := BitVec.ofNat 5 r.val

/-- opcode = w[6:0] (30_encoding.md R81). -/
def opcodeOf (w : Word) : BitVec 7 := w.extractLsb' 0 7

/-- rd = w[11:7] (R82, R83, R86, R87). -/
def rdOf (w : Word) : Reg := regOfBits (w.extractLsb' 7 5)

/-- funct3 = w[14:12] (R82 to R85). -/
def funct3Of (w : Word) : BitVec 3 := w.extractLsb' 12 3

/-- rs1 = w[19:15] (R82 to R85). -/
def rs1Of (w : Word) : Reg := regOfBits (w.extractLsb' 15 5)

/-- rs2 = w[24:20] (R82, R84, R85). -/
def rs2Of (w : Word) : Reg := regOfBits (w.extractLsb' 20 5)

/-- funct7 of R-type and imm_hi of S- and SB-type: w[31:25] (R82, R84, R85). -/
def hi7Of (w : Word) : BitVec 7 := w.extractLsb' 25 7

/-- imm_lo of S- and SB-type: w[11:7] (R84, R85). -/
def lo5Of (w : Word) : BitVec 5 := w.extractLsb' 7 5

/-- imm of I-type: w[31:20] (R83). -/
def imm12Of (w : Word) : BitVec 12 := w.extractLsb' 20 12

/-- imm of U- and UJ-type: w[31:12] (R86, R87). -/
def imm20Of (w : Word) : BitVec 20 := w.extractLsb' 12 20

/-- Four bytes as a word, the byte at the lowest address first (20_memory.md R57). -/
def wordOfBytes (b0 b1 b2 b3 : Byte) : Word := b3 ++ b2 ++ b1 ++ b0

/-- Byte k of a word, k = 0 the least significant. -/
def byteOfWord (w : Word) (k : Nat) : Byte := w.extractLsb' (8 * k) 8

/-- A word's bytes as memory holds them (20_memory.md R57). -/
def bytesOfWord (w : Word) : List Byte := [byteOfWord w 0, byteOfWord w 1, byteOfWord w 2, byteOfWord w 3]

/-! ### The decoded record (30_encoding.md R81 to R90) -/

/-- The six field layouts, each with exactly its own fields (30_encoding.md R82 to R87, R90). -/
inductive Fields where
  /-- R-type (R82). -/
  | rType (rd : Reg) (funct3 : BitVec 3) (rs1 rs2 : Reg) (funct7 : BitVec 7)
  /-- I-type (R83). -/
  | iType (rd : Reg) (funct3 : BitVec 3) (rs1 : Reg) (imm : BitVec 12)
  /-- S-type (R84). -/
  | sType (immLo : BitVec 5) (funct3 : BitVec 3) (rs1 rs2 : Reg) (immHi : BitVec 7)
  /-- SB-type, the branch layout (R85). -/
  | sbType (immLo : BitVec 5) (funct3 : BitVec 3) (rs1 rs2 : Reg) (immHi : BitVec 7)
  /-- U-type (R86). -/
  | uType (rd : Reg) (imm : BitVec 20)
  /-- UJ-type, the jump layout (R87). -/
  | ujType (rd : Reg) (imm : BitVec 20)
  deriving DecidableEq, Repr

/-- The decoder's output: the raw word, kept for diagnostics, the opcode, and the fields of its variant (R90). -/
structure Record where
  word : Word
  opcode : BitVec 7
  fields : Fields
  deriving DecidableEq, Repr

/-- The nine recognised opcode values (30_encoding.md R88). -/
def recognisedOpcodes : List (BitVec 7) := [0x33, 0x2A, 0x03, 0x13, 0x73, 0x23, 0x63, 0x37, 0x6F]

/-- The field layout an opcode selects, applied to a word (the multiplexer of 30_encoding.md R88). -/
def fieldsOf (op : BitVec 7) (w : Word) : Option Fields :=
  if op = 0x33 then some (.rType (rdOf w) (funct3Of w) (rs1Of w) (rs2Of w) (hi7Of w))
  else if op = 0x2A then some (.rType (rdOf w) (funct3Of w) (rs1Of w) (rs2Of w) (hi7Of w))
  else if op = 0x03 then some (.iType (rdOf w) (funct3Of w) (rs1Of w) (imm12Of w))
  else if op = 0x13 then some (.iType (rdOf w) (funct3Of w) (rs1Of w) (imm12Of w))
  else if op = 0x73 then some (.iType (rdOf w) (funct3Of w) (rs1Of w) (imm12Of w))
  else if op = 0x23 then some (.sType (lo5Of w) (funct3Of w) (rs1Of w) (rs2Of w) (hi7Of w))
  else if op = 0x63 then some (.sbType (lo5Of w) (funct3Of w) (rs1Of w) (rs2Of w) (hi7Of w))
  else if op = 0x37 then some (.uType (rdOf w) (imm20Of w))
  else if op = 0x6F then some (.ujType (rdOf w) (imm20Of w))
  else none

/-- `decode(word)`: the tagged record, or none: a decode failure (30_encoding.md R88, R89). -/
def decodeRecord (w : Word) : Option Record :=
  (fieldsOf (opcodeOf w) w).map fun f => { word := w, opcode := opcodeOf w, fields := f }

/-! ### The Immediate Reassembler (30_encoding.md R93 to R98) -/

/-- `I_imm = sext_12(imm)` (R94). -/
def iImm (imm : BitVec 12) : Word := sext 12 (imm.setWidth 32)

/-- `S_off = sext_12({imm_hi[6:0], imm_lo[4:0]})` (R95). -/
def storeOffset (immHi : BitVec 7) (immLo : BitVec 5) : Word :=
  sext 12 ((immHi ++ immLo).setWidth 32)

/-- `B_off = sext_13({imm_hi[6], imm_lo[0], imm_hi[5:0], imm_lo[4:1], 0b0})` (R96). -/
def branchOffset (immHi : BitVec 7) (immLo : BitVec 5) : Word :=
  sext 13 ((immHi.extractLsb' 6 1 ++ immLo.extractLsb' 0 1 ++ immHi.extractLsb' 0 6 ++ immLo.extractLsb' 1 4 ++
    0#1).setWidth 32)

/-- `J_off = sext_21({imm[19], imm[7:0], imm[8], imm[18:9], 0b0})` (R97; the canonical map, 90_conflicts.md C2). -/
def jumpOffset (imm : BitVec 20) : Word :=
  sext 21 ((imm.extractLsb' 19 1 ++ imm.extractLsb' 0 8 ++ imm.extractLsb' 8 1 ++ imm.extractLsb' 9 10 ++
    0#1).setWidth 32)

/-- `U_imm = {imm[19:0], 0b000000000000}` (R98). -/
def upperImm (imm : BitVec 20) : Word := imm ++ 0#12

/-! ### From a record to an instruction (30_encoding.md R100) -/

/-- Opcode 0x33: funct7 and funct3 (40_alu_register.md R121 to R130, R133). -/
def selectAluReg (f3 : BitVec 3) (f7 : BitVec 7) (rd rs1 rs2 : Reg) : Option Instr :=
  if f7 = 0x00 then
    if f3 = 0 then some (.add rd rs1 rs2)
    else if f3 = 1 then some (.sll rd rs1 rs2)
    else if f3 = 2 then some (.slt rd rs1 rs2)
    else if f3 = 3 then some (.sltu rd rs1 rs2)
    else if f3 = 4 then some (.xor rd rs1 rs2)
    else if f3 = 5 then some (.srl rd rs1 rs2)
    else if f3 = 6 then some (.or rd rs1 rs2)
    else some (.and rd rs1 rs2)
  else if f7 = 0x20 then
    if f3 = 0 then some (.sub rd rs1 rs2)
    else if f3 = 5 then some (.sra rd rs1 rs2)
    else none
  else none

/-- Opcode 0x13: funct3, and `imm[11:5]` for the shifts (41_alu_immediate.md R141 to R149, R151). -/
def selectAluImm (f3 : BitVec 3) (imm : BitVec 12) (rd rs1 : Reg) : Option Instr :=
  if f3 = 0 then some (.addi rd rs1 imm)
  else if f3 = 2 then some (.slti rd rs1 imm)
  else if f3 = 3 then some (.sltiu rd rs1 imm)
  else if f3 = 4 then some (.xori rd rs1 imm)
  else if f3 = 6 then some (.ori rd rs1 imm)
  else if f3 = 7 then some (.andi rd rs1 imm)
  else if f3 = 1 then
    if imm.extractLsb' 5 7 = 0x00 then some (.slli rd rs1 (imm.extractLsb' 0 5)) else none
  else
    if imm.extractLsb' 5 7 = 0x00 then some (.srli rd rs1 (imm.extractLsb' 0 5))
    else if imm.extractLsb' 5 7 = 0x20 then some (.srai rd rs1 (imm.extractLsb' 0 5))
    else none

/-- Opcode 0x03: funct3 (42_loads.md R161 to R166). -/
def selectLoad (f3 : BitVec 3) (imm : BitVec 12) (rd rs1 : Reg) : Option Instr :=
  if f3 = 0 then some (.lb rd rs1 imm)
  else if f3 = 1 then some (.lh rd rs1 imm)
  else if f3 = 2 then some (.lw rd rs1 imm)
  else if f3 = 4 then some (.lbu rd rs1 imm)
  else if f3 = 5 then some (.lhu rd rs1 imm)
  else none

/-- Opcode 0x23: funct3 (43_stores.md R176 to R179). -/
def selectStore (f3 : BitVec 3) (off : Word) (rs1 rs2 : Reg) : Option Instr :=
  if f3 = 0 then some (.sb rs2 rs1 off)
  else if f3 = 1 then some (.sh rs2 rs1 off)
  else if f3 = 2 then some (.sw rs2 rs1 off)
  else none

/-- Opcode 0x63: funct3 (44_branches.md R191 to R196, R198). -/
def selectBranch (f3 : BitVec 3) (off : Word) (rs1 rs2 : Reg) : Option Instr :=
  if f3 = 0 then some (.beq rs1 rs2 off)
  else if f3 = 1 then some (.bne rs1 rs2 off)
  else if f3 = 4 then some (.blt rs1 rs2 off)
  else if f3 = 5 then some (.bge rs1 rs2 off)
  else if f3 = 6 then some (.bltu rs1 rs2 off)
  else if f3 = 7 then some (.bgeu rs1 rs2 off)
  else none

/-- The instruction a decoded record selects, "first by opcode, then … by funct3/funct7 sub-fields"
(49_fetch_execute_loop.md R244); none for an unassigned sub-encoding (30_encoding.md R101, class 4). -/
def select (r : Record) : Option Instr :=
  match r.fields with
  | .rType rd f3 rs1 rs2 f7 =>
    if r.opcode = 0x33 then selectAluReg f3 f7 rd rs1 rs2
    else if r.opcode = 0x2A then some (.op2a rd f3 rs1 rs2 f7)
    else none
  | .iType rd f3 rs1 imm =>
    if r.opcode = 0x03 then selectLoad f3 imm rd rs1
    else if r.opcode = 0x13 then selectAluImm f3 imm rd rs1
    else if r.opcode = 0x73 then some (.system rd f3 rs1 imm)
    else none
  | .sType lo f3 rs1 rs2 hi => selectStore f3 (storeOffset hi lo) rs1 rs2
  | .sbType lo f3 rs1 rs2 hi => selectBranch f3 (branchOffset hi lo) rs1 rs2
  | .uType rd imm => some (.lui rd imm)
  | .ujType rd imm => some (.jal rd (jumpOffset imm))

/-- What a 32-bit word is (30_encoding.md R101): classes 2 and 3 are `instr`, class 4 `unassigned`, class 1
`illegal`. -/
inductive Decoded where
  | instr (i : Instr)
  /-- Recognised opcode, no row of the table: decodes, and its effect is refused (48_op2a_unassigned.md R233). -/
  | unassigned (w : Word)
  /-- Unrecognised opcode: DecodeError(w) (30_encoding.md R88). -/
  | illegal (w : Word)
  deriving DecidableEq, Repr

/-- The class and instruction of any 32-bit word. -/
def decodeWord (w : Word) : Decoded :=
  match decodeRecord w with
  | none => .illegal w
  | some r =>
    match select r with
    | none => .unassigned w
    | some i => .instr i

/-! ### Decoding bytes -/

/-- Why a list of bytes gives no instruction. -/
inductive DecodeReject where
  /-- Fewer than four bytes: every instruction has four (30_encoding.md R80). -/
  | truncated
  /-- Unrecognised opcode (R88). -/
  | illegalOpcode (w : Word)
  /-- Recognised opcode, unassigned sub-encoding (R101, class 4). -/
  | unassignedSubEncoding (w : Word)
  deriving DecidableEq, Repr

/-- The instruction at the front of a list of bytes, with the bytes after it; a rejection by name otherwise. -/
def decode : List Byte → Except DecodeReject (Instr × List Byte)
  | b0 :: b1 :: b2 :: b3 :: rest =>
    match decodeWord (wordOfBytes b0 b1 b2 b3) with
    | .instr i => .ok (i, rest)
    | .unassigned w => .error (.unassignedSubEncoding w)
    | .illegal w => .error (.illegalOpcode w)
  | _ => .error .truncated

/-- The decoder's answer on a word of the opcode table: the low `nbits` bits of `w`, zero above, laid out as memory
holds them. -/
def decodeTableWord (nbits w : Nat) : Option Instr :=
  match decode (bytesOfWord (BitVec.ofNat 32 (w % 2 ^ nbits))) with
  | .ok (i, _) => some i
  | .error _ => none

/-! ### The encoder (30_encoding.md R82 to R87, R99, R100) -/

/-- R-type (R82). -/
def packR (f7 : BitVec 7) (rs2 rs1 : Reg) (f3 : BitVec 3) (rd : Reg) (op : BitVec 7) : Word :=
  f7 ++ bitsOfReg rs2 ++ bitsOfReg rs1 ++ f3 ++ bitsOfReg rd ++ op

/-- I-type (R83). -/
def packI (imm : BitVec 12) (rs1 : Reg) (f3 : BitVec 3) (rd : Reg) (op : BitVec 7) : Word :=
  imm ++ bitsOfReg rs1 ++ f3 ++ bitsOfReg rd ++ op

/-- S-type and SB-type (R84, R85). -/
def packS (hi : BitVec 7) (rs2 rs1 : Reg) (f3 : BitVec 3) (lo : BitVec 5) (op : BitVec 7) : Word :=
  hi ++ bitsOfReg rs2 ++ bitsOfReg rs1 ++ f3 ++ lo ++ op

/-- U-type and UJ-type (R86, R87). -/
def packU (imm : BitVec 20) (rd : Reg) (op : BitVec 7) : Word :=
  imm ++ bitsOfReg rd ++ op

/-- `imm_hi = p[11:5]` of a store offset (R99). -/
def storeHi (off : Word) : BitVec 7 := off.extractLsb' 5 7

/-- `imm_lo = p[4:0]` of a store offset (R99). -/
def storeLo (off : Word) : BitVec 5 := off.extractLsb' 0 5

/-- `imm_hi = {p[12], p[10:5]}` of a branch offset (R99). -/
def branchHi (off : Word) : BitVec 7 := off.extractLsb' 12 1 ++ off.extractLsb' 5 6

/-- `imm_lo = {p[4:1], p[11]}` of a branch offset (R99). -/
def branchLo (off : Word) : BitVec 5 := off.extractLsb' 1 4 ++ off.extractLsb' 11 1

/-- `imm = {p[20], p[10:1], p[11], p[19:12]}` of a jump offset (R99). -/
def jumpImm (off : Word) : BitVec 20 :=
  off.extractLsb' 20 1 ++ off.extractLsb' 1 10 ++ off.extractLsb' 11 1 ++ off.extractLsb' 12 8

/-- The word of an instruction (30_encoding.md R100). -/
def encode : Instr → Word
  | .lui rd imm => packU imm rd 0x37
  | .jal rd off => packU (jumpImm off) rd 0x6F
  | .beq rs1 rs2 off => packS (branchHi off) rs2 rs1 0 (branchLo off) 0x63
  | .bne rs1 rs2 off => packS (branchHi off) rs2 rs1 1 (branchLo off) 0x63
  | .blt rs1 rs2 off => packS (branchHi off) rs2 rs1 4 (branchLo off) 0x63
  | .bge rs1 rs2 off => packS (branchHi off) rs2 rs1 5 (branchLo off) 0x63
  | .bltu rs1 rs2 off => packS (branchHi off) rs2 rs1 6 (branchLo off) 0x63
  | .bgeu rs1 rs2 off => packS (branchHi off) rs2 rs1 7 (branchLo off) 0x63
  | .lb rd rs1 imm => packI imm rs1 0 rd 0x03
  | .lh rd rs1 imm => packI imm rs1 1 rd 0x03
  | .lw rd rs1 imm => packI imm rs1 2 rd 0x03
  | .lbu rd rs1 imm => packI imm rs1 4 rd 0x03
  | .lhu rd rs1 imm => packI imm rs1 5 rd 0x03
  | .sb rs2 rs1 off => packS (storeHi off) rs2 rs1 0 (storeLo off) 0x23
  | .sh rs2 rs1 off => packS (storeHi off) rs2 rs1 1 (storeLo off) 0x23
  | .sw rs2 rs1 off => packS (storeHi off) rs2 rs1 2 (storeLo off) 0x23
  | .addi rd rs1 imm => packI imm rs1 0 rd 0x13
  | .slti rd rs1 imm => packI imm rs1 2 rd 0x13
  | .sltiu rd rs1 imm => packI imm rs1 3 rd 0x13
  | .xori rd rs1 imm => packI imm rs1 4 rd 0x13
  | .ori rd rs1 imm => packI imm rs1 6 rd 0x13
  | .andi rd rs1 imm => packI imm rs1 7 rd 0x13
  | .slli rd rs1 shamt => packI (0x00#7 ++ shamt) rs1 1 rd 0x13
  | .srli rd rs1 shamt => packI (0x00#7 ++ shamt) rs1 5 rd 0x13
  | .srai rd rs1 shamt => packI (0x20#7 ++ shamt) rs1 5 rd 0x13
  | .add rd rs1 rs2 => packR 0x00 rs2 rs1 0 rd 0x33
  | .sub rd rs1 rs2 => packR 0x20 rs2 rs1 0 rd 0x33
  | .sll rd rs1 rs2 => packR 0x00 rs2 rs1 1 rd 0x33
  | .slt rd rs1 rs2 => packR 0x00 rs2 rs1 2 rd 0x33
  | .sltu rd rs1 rs2 => packR 0x00 rs2 rs1 3 rd 0x33
  | .xor rd rs1 rs2 => packR 0x00 rs2 rs1 4 rd 0x33
  | .srl rd rs1 rs2 => packR 0x00 rs2 rs1 5 rd 0x33
  | .sra rd rs1 rs2 => packR 0x20 rs2 rs1 5 rd 0x33
  | .or rd rs1 rs2 => packR 0x00 rs2 rs1 6 rd 0x33
  | .and rd rs1 rs2 => packR 0x00 rs2 rs1 7 rd 0x33
  | .system rd f3 rs1 imm => packI imm rs1 f3 rd 0x73
  | .op2a rd f3 rs1 rs2 f7 => packR f7 rs2 rs1 f3 rd 0x2A

/-- The bytes of an instruction as memory holds them (20_memory.md R57). -/
def encodeBytes (i : Instr) : List Byte := bytesOfWord (encode i)

/-! ### The opcode table as data (30_encoding.md R100) -/

/-- One row: word w is this instruction when `w & mask = pattern` (R100 calls the pattern `match`). -/
structure Row where
  mnemonic : String
  pattern : Word
  mask : Word
  deriving DecidableEq, Repr

/-- The rows of opcodes 0x37, 0x6F and 0x63. -/
def rowsFlow : List Row :=
  [⟨"LUI", 0x00000037, 0x0000007F⟩, ⟨"JAL", 0x0000006F, 0x0000007F⟩,
   ⟨"BEQ", 0x00000063, 0x0000707F⟩, ⟨"BNE", 0x00001063, 0x0000707F⟩,
   ⟨"BLT", 0x00004063, 0x0000707F⟩, ⟨"BGE", 0x00005063, 0x0000707F⟩,
   ⟨"BLTU", 0x00006063, 0x0000707F⟩, ⟨"BGEU", 0x00007063, 0x0000707F⟩]

/-- The rows of opcodes 0x03 and 0x23. -/
def rowsMemory : List Row :=
  [⟨"LB", 0x00000003, 0x0000707F⟩, ⟨"LH", 0x00001003, 0x0000707F⟩,
   ⟨"LW", 0x00002003, 0x0000707F⟩, ⟨"LBU", 0x00004003, 0x0000707F⟩,
   ⟨"LHU", 0x00005003, 0x0000707F⟩, ⟨"SB", 0x00000023, 0x0000707F⟩,
   ⟨"SH", 0x00001023, 0x0000707F⟩, ⟨"SW", 0x00002023, 0x0000707F⟩]

/-- The rows of opcode 0x13. -/
def rowsAluImm : List Row :=
  [⟨"ADDI", 0x00000013, 0x0000707F⟩, ⟨"SLTI", 0x00002013, 0x0000707F⟩,
   ⟨"SLTIU", 0x00003013, 0x0000707F⟩, ⟨"XORI", 0x00004013, 0x0000707F⟩,
   ⟨"ORI", 0x00006013, 0x0000707F⟩, ⟨"ANDI", 0x00007013, 0x0000707F⟩,
   ⟨"SLLI", 0x00001013, 0xFE00707F⟩, ⟨"SRLI", 0x00005013, 0xFE00707F⟩,
   ⟨"SRAI", 0x40005013, 0xFE00707F⟩]

/-- The rows of opcode 0x33. -/
def rowsAluReg : List Row :=
  [⟨"ADD", 0x00000033, 0xFE00707F⟩, ⟨"SUB", 0x40000033, 0xFE00707F⟩,
   ⟨"SLL", 0x00001033, 0xFE00707F⟩, ⟨"SLT", 0x00002033, 0xFE00707F⟩,
   ⟨"SLTU", 0x00003033, 0xFE00707F⟩, ⟨"XOR", 0x00004033, 0xFE00707F⟩,
   ⟨"SRL", 0x00005033, 0xFE00707F⟩, ⟨"SRA", 0x40005033, 0xFE00707F⟩,
   ⟨"OR", 0x00006033, 0xFE00707F⟩, ⟨"AND", 0x00007033, 0xFE00707F⟩]

/-- The rows of opcodes 0x73 and 0x2A. -/
def rowsSystem : List Row :=
  [⟨"SYSTEM", 0x00000073, 0x0000007F⟩, ⟨"OP2A", 0x0000002A, 0x0000007F⟩]

/-- The 37 rows of 30_encoding.md R100. -/
def opcodeTable : List Row := rowsFlow ++ rowsMemory ++ rowsAluImm ++ rowsAluReg ++ rowsSystem

/-- A word matches a row (R100). -/
def Row.hits (r : Row) (w : Word) : Bool := w &&& r.mask == r.pattern

/-- The table's mnemonic of an instruction. -/
def Instr.mnemonic : Instr → String
  | .lui _ _ => "LUI"
  | .jal _ _ => "JAL"
  | .beq _ _ _ => "BEQ"
  | .bne _ _ _ => "BNE"
  | .blt _ _ _ => "BLT"
  | .bge _ _ _ => "BGE"
  | .bltu _ _ _ => "BLTU"
  | .bgeu _ _ _ => "BGEU"
  | .lb _ _ _ => "LB"
  | .lh _ _ _ => "LH"
  | .lw _ _ _ => "LW"
  | .lbu _ _ _ => "LBU"
  | .lhu _ _ _ => "LHU"
  | .sb _ _ _ => "SB"
  | .sh _ _ _ => "SH"
  | .sw _ _ _ => "SW"
  | .addi _ _ _ => "ADDI"
  | .slti _ _ _ => "SLTI"
  | .sltiu _ _ _ => "SLTIU"
  | .xori _ _ _ => "XORI"
  | .ori _ _ _ => "ORI"
  | .andi _ _ _ => "ANDI"
  | .slli _ _ _ => "SLLI"
  | .srli _ _ _ => "SRLI"
  | .srai _ _ _ => "SRAI"
  | .add _ _ _ => "ADD"
  | .sub _ _ _ => "SUB"
  | .sll _ _ _ => "SLL"
  | .slt _ _ _ => "SLT"
  | .sltu _ _ _ => "SLTU"
  | .xor _ _ _ => "XOR"
  | .srl _ _ _ => "SRL"
  | .sra _ _ _ => "SRA"
  | .or _ _ _ => "OR"
  | .and _ _ _ => "AND"
  | .system _ _ _ _ => "SYSTEM"
  | .op2a _ _ _ _ _ => "OP2A"

end Sys2Proof
end

