-- ==== Sys2Proof/Config.lean ====
section
/-! DEFINITION. What an implementation fixes (MEM_SIZE, SYSTEM_HALTS) and the free value.
No step changes a configuration; State carries one, so that every statement about all states is a statement about
all configurations. -/

namespace Sys2Proof

/-- The parameters the spec leaves OPEN and that are data: `memSize` is MEM_SIZE, the number of bytes of memory
(00_scope.md R9); `systemHalts` is SYSTEM_HALTS, whether an instruction of opcode 0x73 ends the run (00_scope.md R11,
47_system.md R222). OP2A_EFFECT and UNASSIGNED_POLICY stand at the spec's default, refuse (log 13). -/
structure Config where
  memSize : Nat
  systemHalts : Bool
  deriving DecidableEq, Repr

/-- The constraint of 00_scope.md R9: 1 ≤ MEM_SIZE ≤ 2^32. -/
def Config.legal (c : Config) : Bool :=
  decide (1 ≤ c.memSize) && decide (c.memSize ≤ 2 ^ 32)

/-- FREE VALUE: what `diag` holds after a halt whose `diag` the spec leaves unspecified (SystemExit, BudgetExhausted,
ExternalAbort: 60_exceptions.md R266; 93_implementation_defined.md U9, "any value"). The argument is
`State.freeCount`, so that two such halts need not agree. Log 7. -/
opaque Config.freeDiag : Nat → Word

end Sys2Proof
end

