-- ==== Sys2Proof/Machine/RunTypes.lean ====
section
/-! DEFINITION. The small types of the run bookkeeping and of the host interface (10_state.md R35 to R42;
60_exceptions.md R266). -/

namespace Sys2Proof.Machine

/-- Run status (10_state.md R35). -/
inductive Status where
  | idle
  | running
  | halted
  deriving DecidableEq, Repr

/-- Halt cause (60_exceptions.md R266); `notHalted` is the reserved code 0. -/
inductive Cause where
  | notHalted
  | decodeError
  | memoryAccessError
  | systemExit
  | budgetExhausted
  | externalAbort
  deriving DecidableEq, Repr

/-- The remaining instruction budget (10_state.md R37). -/
inductive Budget where
  | bounded (n : Nat)
  | unbounded
  deriving DecidableEq, Repr

/-- Where the state machine rests between two steps of the model: at the start of a pass, or, while the host holds
it, in Trace/Prompt (10_state.md R42; 49_fetch_execute_loop.md R240, R243). A step runs the other phases through
(R253). Log 15. -/
inductive Phase where
  | fetch
  | tracePrompt
  deriving DecidableEq, Repr

/-- The values of the launch interface (10_state.md R39): the bytes the loader writes, in the order it writes them,
onto the zeroed memory (70_reset_and_hazards.md R302), PC_INIT, REGS_INIT and BUDGET (R303 to R305). -/
structure Launch where
  image : List Host.Cell
  pc : Word
  regs : Vector Word 32
  budget : Budget
  deriving DecidableEq, Repr

/-- What the host asserts at one step (10_state.md R39, R42; 70_reset_and_hazards.md R300). -/
inductive HostAction where
  /-- Nothing; a `hold` asserted before is released. -/
  | quiet
  /-- Reset, from any status (70_reset_and_hazards.md R300). -/
  | reset
  /-- The launch command with its values, used while Idle (10_state.md R39). -/
  | launch (p : Launch)
  /-- Hold the machine in Trace/Prompt (10_state.md R42). -/
  | hold
  /-- Halt the run at a step boundary (49_fetch_execute_loop.md R250). -/
  | abort
  deriving DecidableEq, Repr

end Sys2Proof.Machine
end

