-- ==== Sys2Proof/Machine/ResetValues.lean ====
section
/-! DEFINITION. The values State.reset takes where the spec states none (10_state.md R43; 00_scope.md R9, R11), each
under its log entry, and the two it does state as functions of nothing: zeroed registers and memory. -/

namespace Sys2Proof.Machine

/-- DESIGN CHOICE (log 1): MEM_SIZE is OPEN (00_scope.md R9); 0x4000 is what spec/95_test_vectors.md assumes.
SYSTEM_HALTS = true is the spec's default (R11; log 2). -/
def resetConfig : Config := { memSize := 0x4000, systemHalts := true }

/-- "every general register is 0" (10_state.md R43). -/
def resetRegs : Vector Word 32 := Vector.replicate 32 0

/-- DESIGN CHOICE (log 3): the pc is unspecified until launch (10_state.md R43). -/
def resetPc : Word := 0

/-- DESIGN CHOICE (log 5): `cause` is unspecified while not Halted; code 0 is reserved for "not halted" (R266). -/
def resetCause : Cause := .notHalted

/-- DESIGN CHOICE (log 5): `diag` is unspecified while not Halted (10_state.md R43). -/
def resetDiag : Word := 0

/-- DESIGN CHOICE (log 4): `budget_left` is unspecified until launch (10_state.md R43). -/
def resetBudget : Budget := .unbounded

/-- DESIGN CHOICE (log 6): IR is unspecified at reset (10_state.md R45). -/
def resetIr : Word := 0

/-- What a byte that nothing has written reads as: "every byte of `mem` is 0" (10_state.md R43). -/
def blankByte : Byte := 0

end Sys2Proof.Machine
end

