-- ==== Sys2Proof/Machine/State.lean ====
section
/-! DEFINITION. The complete state of the block (10_state.md R20 to R45), the reasons a step or a meaning can stop,
and the state after reset (R43). -/

namespace Sys2Proof.Machine

/-- The memory array as (address, byte) pairs in canonical form: addresses strictly rising, no entry equal to
`blankByte`; an unlisted address reads `blankByte` (10_state.md R33, R43). -/
abbrev Memory := List Host.Cell

structure State where
  /-- MEM_SIZE and SYSTEM_HALTS (00_scope.md R9, R11); no step changes them. -/
  config : Config
  /-- x[0..31] (10_state.md R20, R21). -/
  regs : Vector Word 32
  /-- The address of the next instruction to fetch (10_state.md R26). -/
  pc : Word
  /-- The one flat byte array (10_state.md R33). -/
  mem : Memory
  /-- Idle, Running or Halted (10_state.md R35). -/
  status : Status
  /-- The halt cause (10_state.md R35; 60_exceptions.md R266). -/
  cause : Cause
  /-- The diagnostic value: the offending word or address of a fault (10_state.md R35). -/
  diag : Word
  /-- The remaining budget (10_state.md R37). -/
  budgetLeft : Budget
  /-- Where the state machine rests (10_state.md R20(g), R36). -/
  phase : Phase
  /-- IR, the fetched word; its decoded record is `decodeRecord ir` (10_state.md R36; 30_encoding.md R90). -/
  ir : Word
  /-- The MODEL's own: what the host asserts at the coming steps, the next first; nothing once the list is empty
  (10_state.md R39, R42). Log 8. -/
  host : List HostAction
  /-- The MODEL's own: how many free values have been drawn (60_exceptions.md R266). Log 7. -/
  freeCount : Nat
  deriving DecidableEq, Repr

/-- The two errors of the block (60_exceptions.md R265). The execution engine and the fetch answer them; the step
takes them (`State.takeFault`), so no step of the machine ends in one. Both are safe: the spec gives them exactly. -/
inductive Fault where
  /-- Raised by the Decode phase on an unrecognised opcode, with the word (60_exceptions.md R267). Safe. -/
  | decodeError (word : Word)
  /-- Raised by the fetch, the five loads and the three stores on an access that ends beyond MEM_SIZE, with the base
  address of the access (60_exceptions.md R268). Safe. -/
  | memoryAccessError (addr : Word)
  deriving DecidableEq, Repr

/-- Where the spec gives no successor state. All are safe: the model stops where the hardware goes on. -/
inductive Refusal where
  /-- An instruction that has no meaning in the model yet, by its mnemonic; raised by no arm of `exec`. Safe. -/
  | notModelled (mnemonic : String)
  /-- Raised by OP2A: "This spec therefore defines no effect: pseudocode `refuse`" (48_op2a_unassigned.md R231).
  Safe. Log 13. -/
  | op2aEffectUnspecified
  /-- Raised by the Execute phase on a word of a recognised opcode that selects no instruction
  (48_op2a_unassigned.md R233). Safe. Log 13. -/
  | unassignedSubEncoding (w : Word)
  /-- Raised by a launch whose image has a byte outside memory: "what the loader does otherwise is outside the block"
  (70_reset_and_hazards.md R302). Safe. Log 11. -/
  | imageOutsideMemory
  /-- Raised by a launch command while Running: the interface is "used while status = Idle" (10_state.md R39).
  Safe. Log 10. -/
  | launchWhileRunning
  deriving DecidableEq, Repr

/-- The machine right after reset (10_state.md R43; 70_reset_and_hazards.md R300). -/
def State.reset : State where
  config := resetConfig
  regs := resetRegs
  pc := resetPc
  mem := []
  status := .idle
  cause := resetCause
  diag := resetDiag
  budgetLeft := resetBudget
  phase := .fetch
  ir := resetIr
  host := []
  freeCount := 0

end Sys2Proof.Machine
end

