-- ==== Sys2Proof/Machine/Ops.lean ====
section
/-! DEFINITION. The named operations every meaning is written in: register file, memory and its arbiter, pc, taking a
fault, halting (10_state.md R21 to R29; 20_memory.md R50 to R66; 60_exceptions.md R265 to R274). -/

namespace Sys2Proof.Machine

/-! ### Memory as a list of cells -/

/-- Addresses strictly rise and no entry is `blankByte`. -/
def Memory.wf (m : Memory) : Bool :=
  decide (m.Pairwise fun c d => c.1 < d.1) && m.all fun c => c.2 != blankByte

/-- Every listed address is below `size`. -/
def Memory.within (size : Nat) (m : Memory) : Bool := m.all fun c => decide (c.1 < size)

/-- The byte at an address. -/
def Memory.read : Memory → Nat → Byte
  | [], _ => blankByte
  | (k, b) :: rest, a => if k = a then b else Memory.read rest a

/-- The memory with one byte changed; writing `blankByte` removes the entry. -/
def Memory.write : Memory → Nat → Byte → Memory
  | [], a, b => if b = blankByte then [] else [(a, b)]
  | (k, c) :: rest, a, b =>
    if a < k then (if b = blankByte then (k, c) :: rest else (a, b) :: (k, c) :: rest)
    else if a = k then (if b = blankByte then rest else (a, b) :: rest)
    else (k, c) :: Memory.write rest a b

/-- n bytes from address a, little-endian, as a 32-bit pattern with zeros above (20_memory.md R54). -/
def Memory.readLE (m : Memory) (a : Nat) : Nat → Word
  | 0 => 0
  | n + 1 => (Memory.readLE m (a + 1) n <<< 8) ||| (m.read a).setWidth 32

/-- The low 8n bits of v at address a, little-endian (20_memory.md R55). -/
def Memory.writeLE (m : Memory) (a : Nat) : Nat → Word → Memory
  | 0, _ => m
  | n + 1, v => Memory.writeLE (m.write a (v.setWidth 8)) (a + 1) n (v >>> 8)

/-- Cells written one after the other, the last write to an address standing. -/
def Memory.writeCells (m : Memory) (cells : List Host.Cell) : Memory :=
  cells.foldl (fun m c => m.write c.1 c.2) m

/-! ### Access widths (20_memory.md R50) -/

inductive Width where
  | byte
  | half
  | word
  deriving DecidableEq, Repr

/-- "width ∈ {1,2,4} bytes" (20_memory.md R50). -/
def Width.bytes : Width → Nat
  | .byte => 1
  | .half => 2
  | .word => 4

namespace State

/-! ### The register file (10_state.md R21 to R25) -/

/-- `x[i]`; x[0] is always 0 (10_state.md R23; 00_scope.md R16). -/
def reg (s : State) (r : Reg) : Word := if r = 0 then 0 else s.regs[r.val]

/-- `x[i] <- v`: "if index is 0 the value is discarded" (10_state.md R23(a)). -/
def setReg (s : State) (r : Reg) (v : Word) : State :=
  if r = 0 then s else { s with regs := s.regs.set r.val v }

/-- `x[0] <- 0`, the Enforce-Zero-Register phase (49_fetch_execute_loop.md R246). -/
def enforceZero (s : State) : State := { s with regs := s.regs.set 0 0 }

/-! ### The program counter (10_state.md R26 to R29) -/

/-- `pc <- t`. -/
def setPc (s : State) (t : Word) : State := { s with pc := t }

/-- "Default PC advance is +4", modulo 2^32 (10_state.md R27, R29). -/
def advance (s : State) : State := s.setPc (s.pc + 4)

/-! ### The load/store/fetch arbiter (20_memory.md R50 to R56) -/

/-- The byte of memory at an address. -/
def byteAt (s : State) (a : Nat) : Byte := s.mem.read a

/-- An access is valid when unsigned(addr) + n ≤ MEM_SIZE over natural numbers (20_memory.md R51). -/
def validAccess (s : State) (addr : Word) (n : Width) : Bool := decide (addr.toNat + n.bytes ≤ s.config.memSize)

/-- `MemRead(addr, n)` (20_memory.md R54), the result zero-extended to 32 bits. -/
def memRead (s : State) (addr : Word) (n : Width) : Except Fault Word :=
  if s.validAccess addr n then .ok (s.mem.readLE addr.toNat n.bytes) else .error (.memoryAccessError addr)

/-- `MemWrite(addr, n, v)`: the whole access is checked before the first byte is written (20_memory.md R55). -/
def memWrite (s : State) (addr : Word) (n : Width) (v : Word) : Except Fault State :=
  if s.validAccess addr n then .ok { s with mem := s.mem.writeLE addr.toNat n.bytes v }
  else .error (.memoryAccessError addr)

end State

/-! ### Faults and halts (60_exceptions.md R265 to R274) -/

/-- The halt cause of a fault (60_exceptions.md R266). -/
def Fault.cause : Fault → Cause
  | .decodeError _ => .decodeError
  | .memoryAccessError _ => .memoryAccessError

/-- `diag` of a fault: the offending word or address (60_exceptions.md R266 to R268). -/
def Fault.diag : Fault → Word
  | .decodeError w => w
  | .memoryAccessError a => a

namespace State

/-- TAKING A FAULT, `raise E(v)` (60_exceptions.md R270, R271, R273; 49_fetch_execute_loop.md R252): Halted, with cause
and diag; registers, pc, memory and budget as the step found them. There is no handler and no return (R275): only
reset leaves Halted. -/
def takeFault (f : Fault) (s : State) : State :=
  { s with status := .halted, cause := f.cause, diag := f.diag, phase := .fetch }

/-- A halt that is no fault, `halt(C)` (00_scope.md R16; 60_exceptions.md R266): its `diag` is unspecified, a free
value (log 7). -/
def haltWith (c : Cause) (s : State) : State :=
  { s with status := .halted, cause := c, diag := Config.freeDiag s.freeCount, freeCount := s.freeCount + 1,
           phase := .fetch }

end State

/-- A numeric budget loses 1, an unbounded one is never changed (49_fetch_execute_loop.md R248). -/
def Budget.countDown : Budget → Budget
  | .bounded n => .bounded (n - 1)
  | .unbounded => .unbounded

/-- A budget that is the number 0 (49_fetch_execute_loop.md R248). -/
def Budget.spent : Budget → Bool
  | .bounded 0 => true
  | .bounded (_ + 1) => false
  | .unbounded => false

/-- The result of an operation that may raise, handed on: a raise ends the instruction with no further state change
(00_scope.md R16). -/
def orFault {α : Type} (r : Except Fault α) (k : α → Host.Outcome State Fault Refusal) :
    Host.Outcome State Fault Refusal :=
  match r with
  | .ok a => k a
  | .error f => .fault f

end Sys2Proof.Machine
end

