-- ==== Sys2Proof/Machine/Operands.lean ====
section
/-! DEFINITION. The operand forms: effective addresses, shift amounts, transfer targets (20_memory.md R71;
30_encoding.md R94 to R98; 40_alu_register.md R123, R131). -/

namespace Sys2Proof.Machine.State

/-- `ea = x[rs1] + I_imm`, modulo 2^32 (20_memory.md R71; 42_loads.md R160). -/
def loadAddress (s : State) (rs1 : Reg) (imm : BitVec 12) : Word := s.reg rs1 + iImm imm

/-- `ea = x[rs1] + S_off`, modulo 2^32 (20_memory.md R71; 43_stores.md R175). -/
def storeAddress (s : State) (rs1 : Reg) (off : Word) : Word := s.reg rs1 + off

/-- `k = x[rs2][4:0]` (40_alu_register.md R123, R127, R128). -/
def shiftAmount (s : State) (rs2 : Reg) : Nat := ((s.reg rs2).extractLsb' 0 5).toNat

/-- `pc + B_off` or `pc + J_off`, modulo 2^32 (10_state.md R29). -/
def target (s : State) (off : Word) : Word := s.pc + off

/-- `pc + 4`, the link value of JAL (45_jumps.md R205). -/
def linkValue (s : State) : Word := s.pc + 4

end Sys2Proof.Machine.State
end

