-- ==== Sys2Proof/Machine/Flags.lean ====
section
/-! DEFINITION. The block has no status flags (10_state.md R30): "branches compare two registers directly". What other
machines compute as flags is here the two order tests and the 0/1 result of the set instructions (00_scope.md R17). -/

namespace Sys2Proof.Machine

/-- `a <s b`: signed(a) < signed(b) (00_scope.md R17). -/
def ltSigned (a b : Word) : Bool := decide (a.toInt < b.toInt)

/-- `a <u b`: unsigned(a) < unsigned(b) (00_scope.md R17). -/
def ltUnsigned (a b : Word) : Bool := decide (a.toNat < b.toNat)

/-- `c ? 1 : 0` as a 32-bit pattern (40_alu_register.md R124). -/
def wordOfTest (c : Bool) : Word := if c then 1 else 0

end Sys2Proof.Machine
end

