-- ==== Sys2Proof/Machine/AluReg.lean ====
section
/-! DEFINITION. Opcode 0x33: the ten register-register instructions (40_alu_register.md R120 to R131). -/

namespace Sys2Proof.Machine

/-- `x[rd] <- r; pc <- pc + 4` (40_alu_register.md R120; 41_alu_immediate.md R140). -/
def writeResult (rd : Reg) (r : Word) (s : State) : Host.Outcome State Fault Refusal :=
  .next (s.setReg rd r).advance

/-- ADD: the sum modulo 2^32 (R121). -/
def execAdd (rd rs1 rs2 : Reg) (s : State) : Host.Outcome State Fault Refusal :=
  writeResult rd (s.reg rs1 + s.reg rs2) s

/-- SUB: the difference modulo 2^32 (R122). -/
def execSub (rd rs1 rs2 : Reg) (s : State) : Host.Outcome State Fault Refusal :=
  writeResult rd (s.reg rs1 - s.reg rs2) s

/-- SLL: `x[rs1] << x[rs2][4:0]` (R123). -/
def execSll (rd rs1 rs2 : Reg) (s : State) : Host.Outcome State Fault Refusal :=
  writeResult rd (s.reg rs1 <<< s.shiftAmount rs2) s

/-- SLT: signed less-than, 1 or 0 (R124). -/
def execSlt (rd rs1 rs2 : Reg) (s : State) : Host.Outcome State Fault Refusal :=
  writeResult rd (wordOfTest (ltSigned (s.reg rs1) (s.reg rs2))) s

/-- SLTU: unsigned less-than, 1 or 0 (R125). -/
def execSltu (rd rs1 rs2 : Reg) (s : State) : Host.Outcome State Fault Refusal :=
  writeResult rd (wordOfTest (ltUnsigned (s.reg rs1) (s.reg rs2))) s

/-- XOR (R126). -/
def execXor (rd rs1 rs2 : Reg) (s : State) : Host.Outcome State Fault Refusal :=
  writeResult rd (s.reg rs1 ^^^ s.reg rs2) s

/-- SRL: `x[rs1] >>u x[rs2][4:0]` (R127). -/
def execSrl (rd rs1 rs2 : Reg) (s : State) : Host.Outcome State Fault Refusal :=
  writeResult rd (s.reg rs1 >>> s.shiftAmount rs2) s

/-- SRA: `x[rs1] >>s x[rs2][4:0]` (R128). -/
def execSra (rd rs1 rs2 : Reg) (s : State) : Host.Outcome State Fault Refusal :=
  writeResult rd ((s.reg rs1).sshiftRight (s.shiftAmount rs2)) s

/-- OR (R129). -/
def execOr (rd rs1 rs2 : Reg) (s : State) : Host.Outcome State Fault Refusal :=
  writeResult rd (s.reg rs1 ||| s.reg rs2) s

/-- AND (R130). -/
def execAnd (rd rs1 rs2 : Reg) (s : State) : Host.Outcome State Fault Refusal :=
  writeResult rd (s.reg rs1 &&& s.reg rs2) s

end Sys2Proof.Machine
end

