-- ==== Sys2Proof/Machine/AluImm.lean ====
section
/-! DEFINITION. Opcode 0x13: the nine register-immediate instructions (41_alu_immediate.md R140 to R150). -/

namespace Sys2Proof.Machine

/-- ADDI (R141). -/
def execAddi (rd rs1 : Reg) (imm : BitVec 12) (s : State) : Host.Outcome State Fault Refusal :=
  writeResult rd (s.reg rs1 + iImm imm) s

/-- SLTI: signed against the sign-extended immediate (R142). -/
def execSlti (rd rs1 : Reg) (imm : BitVec 12) (s : State) : Host.Outcome State Fault Refusal :=
  writeResult rd (wordOfTest (ltSigned (s.reg rs1) (iImm imm))) s

/-- SLTIU: the immediate is sign-extended, then compared as unsigned (R143). -/
def execSltiu (rd rs1 : Reg) (imm : BitVec 12) (s : State) : Host.Outcome State Fault Refusal :=
  writeResult rd (wordOfTest (ltUnsigned (s.reg rs1) (iImm imm))) s

/-- XORI (R144). -/
def execXori (rd rs1 : Reg) (imm : BitVec 12) (s : State) : Host.Outcome State Fault Refusal :=
  writeResult rd (s.reg rs1 ^^^ iImm imm) s

/-- ORI (R145). -/
def execOri (rd rs1 : Reg) (imm : BitVec 12) (s : State) : Host.Outcome State Fault Refusal :=
  writeResult rd (s.reg rs1 ||| iImm imm) s

/-- ANDI (R146). -/
def execAndi (rd rs1 : Reg) (imm : BitVec 12) (s : State) : Host.Outcome State Fault Refusal :=
  writeResult rd (s.reg rs1 &&& iImm imm) s

/-- SLLI: `x[rs1] << imm[4:0]` (R147). -/
def execSlli (rd rs1 : Reg) (shamt : BitVec 5) (s : State) : Host.Outcome State Fault Refusal :=
  writeResult rd (s.reg rs1 <<< shamt.toNat) s

/-- SRLI: `x[rs1] >>u imm[4:0]` (R148). -/
def execSrli (rd rs1 : Reg) (shamt : BitVec 5) (s : State) : Host.Outcome State Fault Refusal :=
  writeResult rd (s.reg rs1 >>> shamt.toNat) s

/-- SRAI: `x[rs1] >>s imm[4:0]` (R149). -/
def execSrai (rd rs1 : Reg) (shamt : BitVec 5) (s : State) : Host.Outcome State Fault Refusal :=
  writeResult rd ((s.reg rs1).sshiftRight shamt.toNat) s

end Sys2Proof.Machine
end

