-- ==== Sys2Proof/Machine/Branches.lean ====
section
/-! DEFINITION. Opcode 0x63: the six conditional branches (44_branches.md R190 to R197). -/

namespace Sys2Proof.Machine

/-- A branch (R190): `pc + B_off` when the test holds, else `pc + 4`; no alignment or bounds check (R197). -/
def branch (taken : Bool) (off : Word) (s : State) : Host.Outcome State Fault Refusal :=
  .next (if taken then s.setPc (s.target off) else s.advance)

/-- BEQ (R191). -/
def execBeq (rs1 rs2 : Reg) (off : Word) (s : State) : Host.Outcome State Fault Refusal :=
  branch (s.reg rs1 == s.reg rs2) off s

/-- BNE (R192). -/
def execBne (rs1 rs2 : Reg) (off : Word) (s : State) : Host.Outcome State Fault Refusal :=
  branch (s.reg rs1 != s.reg rs2) off s

/-- BLT (R193). -/
def execBlt (rs1 rs2 : Reg) (off : Word) (s : State) : Host.Outcome State Fault Refusal :=
  branch (ltSigned (s.reg rs1) (s.reg rs2)) off s

/-- BGE (R194). -/
def execBge (rs1 rs2 : Reg) (off : Word) (s : State) : Host.Outcome State Fault Refusal :=
  branch (!ltSigned (s.reg rs1) (s.reg rs2)) off s

/-- BLTU (R195). -/
def execBltu (rs1 rs2 : Reg) (off : Word) (s : State) : Host.Outcome State Fault Refusal :=
  branch (ltUnsigned (s.reg rs1) (s.reg rs2)) off s

/-- BGEU (R196). -/
def execBgeu (rs1 rs2 : Reg) (off : Word) (s : State) : Host.Outcome State Fault Refusal :=
  branch (!ltUnsigned (s.reg rs1) (s.reg rs2)) off s

end Sys2Proof.Machine
end

