-- ==== Sys2Proof/Machine/Jump.lean ====
section
/-! DEFINITION. Opcode 0x6F: JAL (45_jumps.md R205, R207). -/

namespace Sys2Proof.Machine

/-- JAL: `x[rd] <- pc + 4; pc <- pc + J_off`, both from the address of the JAL; the target is not checked (R205,
R207). -/
def execJal (rd : Reg) (off : Word) (s : State) : Host.Outcome State Fault Refusal :=
  .next ((s.setReg rd s.linkValue).setPc (s.target off))

end Sys2Proof.Machine
end

