-- ==== Sys2Proof/Machine/Loads.lean ====
section
/-! DEFINITION. Opcode 0x03: the five loads (42_loads.md R160 to R165). -/

namespace Sys2Proof.Machine

/-- A load (R160): the address, the read, which may raise with nothing changed, the extension, `x[rd]`, the pc. A
load into x0 still reads and can still fault (30_encoding.md R102). -/
def load (n : Width) (extend : Word → Word) (rd rs1 : Reg) (imm : BitVec 12) (s : State) :
    Host.Outcome State Fault Refusal :=
  orFault (s.memRead (s.loadAddress rs1 imm) n) fun v => writeResult rd (extend v) s

/-- LB: `sext_8(MemRead(ea, 1))` (R161). -/
def execLb (rd rs1 : Reg) (imm : BitVec 12) (s : State) : Host.Outcome State Fault Refusal :=
  load .byte (sext 8) rd rs1 imm s

/-- LH: `sext_16(MemRead(ea, 2))` (R162). -/
def execLh (rd rs1 : Reg) (imm : BitVec 12) (s : State) : Host.Outcome State Fault Refusal :=
  load .half (sext 16) rd rs1 imm s

/-- LW: `MemRead(ea, 4)` (R163). -/
def execLw (rd rs1 : Reg) (imm : BitVec 12) (s : State) : Host.Outcome State Fault Refusal :=
  load .word id rd rs1 imm s

/-- LBU: `zext_8(MemRead(ea, 1))` (R164). -/
def execLbu (rd rs1 : Reg) (imm : BitVec 12) (s : State) : Host.Outcome State Fault Refusal :=
  load .byte (zext 8) rd rs1 imm s

/-- LHU: `zext_16(MemRead(ea, 2))` (R165). -/
def execLhu (rd rs1 : Reg) (imm : BitVec 12) (s : State) : Host.Outcome State Fault Refusal :=
  load .half (zext 16) rd rs1 imm s

end Sys2Proof.Machine
end

