-- ==== Sys2Proof/Machine/Op2a.lean ====
section
/-! DEFINITION. Opcode 0x2A: OP2A, whose effect the spec refuses (48_op2a_unassigned.md R230 to R232). -/

namespace Sys2Proof.Machine

/-- OP2A_EFFECT at its default: "This spec therefore defines no effect: pseudocode `refuse`" (R231). Not a
DecodeError, not a no-op, not any ALU result. Log 13. -/
def execOp2a (_rd : Reg) (_funct3 : BitVec 3) (_rs1 _rs2 : Reg) (_funct7 : BitVec 7) (_s : State) :
    Host.Outcome State Fault Refusal :=
  .refused .op2aEffectUnspecified

end Sys2Proof.Machine
end

