-- ==== Sys2Proof/Machine/Stores.lean ====
section
/-! DEFINITION. Opcode 0x23: the three stores (43_stores.md R175 to R178). -/

namespace Sys2Proof.Machine

/-- A store (R175): the address, the write of the low bytes of `x[rs2]`, which may raise with no byte changed, the
pc. -/
def store (n : Width) (rs2 rs1 : Reg) (off : Word) (s : State) : Host.Outcome State Fault Refusal :=
  orFault (s.memWrite (s.storeAddress rs1 off) n (s.reg rs2)) fun t => .next t.advance

/-- SB, the store-byte instruction (R176). -/
def execSb (rs2 rs1 : Reg) (off : Word) (s : State) : Host.Outcome State Fault Refusal :=
  store .byte rs2 rs1 off s

/-- SH (R177). -/
def execSh (rs2 rs1 : Reg) (off : Word) (s : State) : Host.Outcome State Fault Refusal :=
  store .half rs2 rs1 off s

/-- SW (R178). -/
def execSw (rs2 rs1 : Reg) (off : Word) (s : State) : Host.Outcome State Fault Refusal :=
  store .word rs2 rs1 off s

end Sys2Proof.Machine
end

