-- ==== Sys2Proof/Machine/System.lean ====
section
/-! DEFINITION. Opcode 0x73: SYSTEM, every word of the opcode (47_system.md R220 to R225). -/

namespace Sys2Proof.Machine

/-- SYSTEM: `pc <- pc + 4; if SYSTEM_HALTS then halt(SystemExit)` (R221, R222). The fields rd, funct3, rs1 and imm are
ignored (R220): no register, memory or CSR access, no return, no wait (R224). -/
def execSystem (_rd : Reg) (_funct3 : BitVec 3) (_rs1 : Reg) (_imm : BitVec 12) (s : State) :
    Host.Outcome State Fault Refusal :=
  .next (if s.config.systemHalts then s.advance.haltWith .systemExit else s.advance)

end Sys2Proof.Machine
end

