-- ==== Sys2Proof/Machine/UpperImm.lean ====
section
/-! DEFINITION. Opcode 0x37: LUI (46_upper_immediate.md R215). -/

namespace Sys2Proof.Machine

/-- LUI: `x[rd] <- {imm[19:0], 0b000000000000}` (R215). -/
def execLui (rd : Reg) (imm : BitVec 20) (s : State) : Host.Outcome State Fault Refusal :=
  writeResult rd (upperImm imm) s

end Sys2Proof.Machine
end

