-- ==== Sys2Proof/Machine/HostPort.lean ====
section
/-! DEFINITION. The host interface: reset, launch, the read-only status port, trace tap and register dump
(10_state.md R39 to R44; 60_exceptions.md R266; 70_reset_and_hazards.md R300 to R306). -/

namespace Sys2Proof.Machine

/-- The code of a cause (60_exceptions.md R266). -/
def Cause.code : Cause → Nat
  | .notHalted => 0
  | .decodeError => 1
  | .memoryAccessError => 2
  | .systemExit => 3
  | .budgetExhausted => 4
  | .externalAbort => 5

/-- The host asserts `hold` (10_state.md R42). -/
def HostAction.isHold : HostAction → Bool
  | .hold => true
  | .quiet => false
  | .reset => false
  | .launch _ => false
  | .abort => false

/-- The host asserts `abort` (49_fetch_execute_loop.md R250). -/
def HostAction.isAbort : HostAction → Bool
  | .abort => true
  | .quiet => false
  | .reset => false
  | .launch _ => false
  | .hold => false

/-- The cells a loader writes for an image of words at a base address, "4 bytes per line, in the order read"
(70_reset_and_hazards.md R302). -/
def loaderImage (base : Nat) : List Word → List Host.Cell
  | [] => []
  | w :: ws =>
    [(base, byteOfWord w 0), (base + 1, byteOfWord w 1), (base + 2, byteOfWord w 2), (base + 3, byteOfWord w 3)] ++
      loaderImage (base + 4) ws

namespace State

/-- What the host asserts at this step (log 8). -/
def hostAction (s : State) : HostAction := s.host.headD .quiet

/-- The state once this step's host action is taken off the list (log 8). -/
def hostTaken (s : State) : State := { s with host := s.host.tail }

/-- Reset from any status: "A run in progress or a halted run is lost entirely" (70_reset_and_hazards.md R300). The
configuration and the model's own fields stay (log 9). -/
def applyReset (s : State) : State :=
  { State.reset with config := s.config, host := s.host, freeCount := s.freeCount }

/-- The launch command (10_state.md R44; 70_reset_and_hazards.md R301 to R306): memory is "all zeros except the bytes
the loader wrote" (R302); x[0] = 0 whatever REGS_INIT holds there; an image byte outside memory is refused (log 11). -/
def launch (p : Launch) (s : State) : Host.Outcome State Fault Refusal :=
  if p.image.all fun c => decide (c.1 < s.config.memSize) then
    .next { s with regs := p.regs.set 0 0, pc := p.pc, mem := Memory.writeCells [] p.image, status := .running,
                   cause := .notHalted, budgetLeft := p.budget, phase := .fetch }
  else .refused .imageOutsideMemory

/-- The status port: `status`, and `cause` and `diag` when Halted (10_state.md R40; 60_exceptions.md R274). -/
def statusPort (s : State) : Status × Option (Cause × Word) :=
  match s.status with
  | .idle => (.idle, none)
  | .running => (.running, none)
  | .halted => (.halted, some (s.cause, s.diag))

/-- The trace tap in Trace/Prompt: the pc, the raw word and the decoded record (10_state.md R41; R243). -/
def traceTap (s : State) : Word × Word × Option Record := (s.pc, s.ir, decodeRecord s.ir)

/-- The register dump: the 32 register values, r0 first (10_state.md R41; 49_fetch_execute_loop.md R247). -/
def registerDump (s : State) : List Word := (List.finRange 32).map s.reg

end State

end Sys2Proof.Machine
end

