-- ==== Sys2Proof/Machine/Cycle.lean ====
section
/-! DEFINITION. The fetch–execute state machine: the phases of one pass and the step under one host action
(49_fetch_execute_loop.md R240 to R253). -/

namespace Sys2Proof.Machine

namespace State

/-- Fetch: `IR <- MemRead(pc, 4)`, bounds-checked, no alignment check (49_fetch_execute_loop.md R241). -/
def fetch (s : State) : Except Fault Word := s.memRead s.pc .word

/-- A completed pass: Enforce-Zero-Register, the budget, back to Fetch (R246, R248, R240). -/
def retire (s : State) : State :=
  { s.enforceZero with budgetLeft := s.budgetLeft.countDown, phase := .fetch }

end State

/-- The end of the Execute phase of a pass that began in `s`: a completed instruction retires; a raise leaves the
machine Halted with the state the pass began in (R252, R271; log 12). -/
def settle (s : State) (o : Host.Outcome State Fault Refusal) : Host.Outcome State Fault Refusal :=
  match o with
  | .next t => .next t.retire
  | .fault f => .next (s.takeFault f)
  | .refused r => .refused r

/-- Execute: the instruction of IR (R244); an unassigned sub-encoding is refused (48_op2a_unassigned.md R233). -/
def executePhase (s : State) : Host.Outcome State Fault Refusal :=
  match decodeWord s.ir with
  | .instr i => settle s (exec i s)
  | .unassigned w => .refused (.unassignedSubEncoding w)
  | .illegal w => .next (s.takeFault (.decodeError w))

/-- Trace/Prompt: rest here while the host holds (R243; 10_state.md R42), else Execute. -/
def promptPhase (a : HostAction) (s : State) : Host.Outcome State Fault Refusal :=
  if a.isHold then .next { s with phase := .tracePrompt } else executePhase s

/-- Decode: DecodeError(IR) on an unrecognised opcode (R242), else Trace/Prompt. -/
def decodePhase (a : HostAction) (s : State) : Host.Outcome State Fault Refusal :=
  match decodeRecord s.ir with
  | none => .next (s.takeFault (.decodeError s.ir))
  | some _ => promptPhase a s

/-- Fetch into IR, then Decode; an invalid fetch raises MemoryAccessError(pc) (R241). -/
def fetchPhase (a : HostAction) (s : State) : Host.Outcome State Fault Refusal :=
  match s.fetch with
  | .error f => .next (s.takeFault f)
  | .ok w => decodePhase a { s with ir := w }

/-- The step boundary: abort first, then an exhausted budget, then Fetch (60_exceptions.md R272;
49_fetch_execute_loop.md R252). -/
def boundary (a : HostAction) (s : State) : Host.Outcome State Fault Refusal :=
  if a.isAbort then .next (s.haltWith .externalAbort)
  else if s.budgetLeft.spent then .next (s.haltWith .budgetExhausted)
  else fetchPhase a s

/-- A Running block (R252). A pass held in Trace/Prompt goes on from there: the host cannot abort in the middle of a
step (R250). -/
def runningStep (a : HostAction) (s : State) : Host.Outcome State Fault Refusal :=
  match s.phase with
  | .fetch => boundary a s
  | .tracePrompt => promptPhase a s

/-- One step under the host action `a`. Reset acts from any status (70_reset_and_hazards.md R300); an Idle block waits
for launch (R301); a Halted one never changes (49_fetch_execute_loop.md R254; 70_reset_and_hazards.md R309); a launch
while Running is refused (log 10). -/
def stepUnder (a : HostAction) (s : State) : Host.Outcome State Fault Refusal :=
  match a, s.status with
  | .reset, _ => .next s.applyReset
  | .launch p, .idle => s.launch p
  | .launch _, .running => .refused .launchWhileRunning
  | .launch _, .halted => .next s
  | .quiet, .idle => .next s
  | .quiet, .running => runningStep .quiet s
  | .quiet, .halted => .next s
  | .hold, .idle => .next s
  | .hold, .running => runningStep .hold s
  | .hold, .halted => .next s
  | .abort, .idle => .next s
  | .abort, .running => runningStep .abort s
  | .abort, .halted => .next s

/-- The state with a word stored where the next step fetches, and Running with nothing else asked of the step: the
host's list empty, no held pass, a budget that is not spent (log 17). -/
def State.placeWord (s : State) (w : Word) : State :=
  { s with mem := s.mem.writeLE s.pc.toNat 4 w, status := .running, phase := .fetch, host := [],
           budgetLeft := if s.budgetLeft.spent then .unbounded else s.budgetLeft }

end Sys2Proof.Machine
end

