-- ==== Sys2Proof/Machine/Step.lean ====
section
/-! DEFINITION. The machine's step (49_fetch_execute_loop.md R252, R253), and the state in which the next step fetches
a given word. -/

namespace Sys2Proof.Machine

/-- One step: the host's action at this step, then the block. -/
def step (s : State) : Host.Outcome State Fault Refusal :=
  stepUnder s.hostAction s.hostTaken

/-- `s` with the instruction whose bits are `w` (`nbits` of them, zero above) placed so that the next step runs it.
Launch from outside stands for the load (log 17). -/
def State.withFetchWord (s : State) (nbits w : Nat) : State :=
  s.placeWord (BitVec.ofNat 32 (w % 2 ^ nbits))

end Sys2Proof.Machine
end

