-- ==== Sys2Proof/Safety.lean ====
section
/-! DEFINITION. What a run's end means, what a well-formed word is, the invariant of the machine's states, and the
frame predicates the statements are written in (49_fetch_execute_loop.md R254; 48_op2a_unassigned.md R235). -/

namespace Sys2Proof.Machine

/-- "cause is … DecodeError or MemoryAccessError" (49_fetch_execute_loop.md R254). -/
def Cause.isFault : Cause → Bool
  | .notHalted => false
  | .decodeError => true
  | .memoryAccessError => true
  | .systemExit => false
  | .budgetExhausted => false
  | .externalAbort => false

namespace State

/-- "A run is **over** when `status` = Halted" (49_fetch_execute_loop.md R254). -/
def isOver (s : State) : Bool := s.status == .halted

/-- Over with cause SystemExit or BudgetExhausted (R254). -/
def successful (s : State) : Bool := s.isOver && (s.cause == .systemExit || s.cause == .budgetExhausted)

/-- Over with cause DecodeError or MemoryAccessError (R254). -/
def faulted (s : State) : Bool := s.isOver && s.cause.isFault

/-- Over with cause ExternalAbort (R254). -/
def aborted (s : State) : Bool := s.isOver && s.cause == .externalAbort

end State

/-- A word a well-formed program may fetch: "matches one of the 36 rows other than OP2A" (48_op2a_unassigned.md
R235). -/
def safeWord (w : Word) : Bool := opcodeTable.any fun r => r.hits w && r.mnemonic != "OP2A"

namespace State

/-- What every state of a run satisfies: a legal MEM_SIZE (00_scope.md R9); memory canonical and inside the arena
(10_state.md R33); the stored x0 is 0 (R23); a pass is held only while Running, with a decoded IR and a budget that is
not spent (R42, R248); Halted exactly when a cause is recorded (R35, 70_reset_and_hazards.md R306 L-NOFAULT). -/
abbrev Inv (s : State) : Prop :=
  s.config.legal = true ∧
  Memory.wf s.mem = true ∧
  Memory.within s.config.memSize s.mem = true ∧
  s.regs[0] = 0 ∧
  (s.phase = .tracePrompt →
    s.status = .running ∧ (decodeRecord s.ir).isSome = true ∧ s.budgetLeft.spent = false) ∧
  (s.status = .halted ↔ s.cause ≠ .notHalted)

/-- Nothing but registers, pc and memory differs: configuration, run bookkeeping, IR, and the model's own fields are
unchanged. -/
abbrev SameRun (s t : State) : Prop :=
  t.config = s.config ∧ t.status = s.status ∧ t.cause = s.cause ∧ t.diag = s.diag ∧
  t.budgetLeft = s.budgetLeft ∧ t.phase = s.phase ∧ t.ir = s.ir ∧ t.host = s.host ∧ t.freeCount = s.freeCount

/-- Every byte of memory reads as before. -/
def SameMemory (s t : State) : Prop := ∀ a : Nat, t.byteAt a = s.byteAt a

/-- Every general register reads as before. -/
def SameRegs (s t : State) : Prop := ∀ r : Reg, t.reg r = s.reg r

/-- Every general register but `rd` reads as before. -/
def SameRegsBut (rd : Reg) (s t : State) : Prop := ∀ r : Reg, r ≠ rd → t.reg r = s.reg r

/-- The frame of an instruction that writes `rd` only and stores nothing: every other register, all of memory and all
run bookkeeping as before, and the pc 4 further (10_state.md R24, R27). -/
def WritesOnly (rd : Reg) (s t : State) : Prop :=
  SameRegsBut rd s t ∧ SameMemory s t ∧ SameRun s t ∧ t.pc = s.pc + 4

/-- The host asserts nothing, and the block is Running at a step boundary with budget left: the next step fetches
(49_fetch_execute_loop.md R252). -/
abbrev AtFetch (s : State) : Prop :=
  s.status = .running ∧ s.phase = .fetch ∧ s.budgetLeft.spent = false ∧ s.hostAction = .quiet

end State

/-- The register an instruction writes, if it has one (10_state.md R24). -/
def destination : Instr → Option Reg
  | .lui rd _ => some rd
  | .jal rd _ => some rd
  | .beq _ _ _ => none
  | .bne _ _ _ => none
  | .blt _ _ _ => none
  | .bge _ _ _ => none
  | .bltu _ _ _ => none
  | .bgeu _ _ _ => none
  | .lb rd _ _ => some rd
  | .lh rd _ _ => some rd
  | .lw rd _ _ => some rd
  | .lbu rd _ _ => some rd
  | .lhu rd _ _ => some rd
  | .sb _ _ _ => none
  | .sh _ _ _ => none
  | .sw _ _ _ => none
  | .addi rd _ _ => some rd
  | .slti rd _ _ => some rd
  | .sltiu rd _ _ => some rd
  | .xori rd _ _ => some rd
  | .ori rd _ _ => some rd
  | .andi rd _ _ => some rd
  | .slli rd _ _ => some rd
  | .srli rd _ _ => some rd
  | .srai rd _ _ => some rd
  | .add rd _ _ => some rd
  | .sub rd _ _ => some rd
  | .sll rd _ _ => some rd
  | .slt rd _ _ => some rd
  | .sltu rd _ _ => some rd
  | .xor rd _ _ => some rd
  | .srl rd _ _ => some rd
  | .sra rd _ _ => some rd
  | .or rd _ _ => some rd
  | .and rd _ _ => some rd
  | .system _ _ _ _ => none
  | .op2a _ _ _ _ _ => none

/-- The read an instruction makes of data memory: its address and width (20_memory.md R59, R71). -/
def dataRead (s : State) : Instr → Option (Word × Width)
  | .lb _ rs1 imm => some (s.loadAddress rs1 imm, .byte)
  | .lh _ rs1 imm => some (s.loadAddress rs1 imm, .half)
  | .lw _ rs1 imm => some (s.loadAddress rs1 imm, .word)
  | .lbu _ rs1 imm => some (s.loadAddress rs1 imm, .byte)
  | .lhu _ rs1 imm => some (s.loadAddress rs1 imm, .half)
  | _ => none

/-- The write an instruction makes to data memory: its address and width (20_memory.md R59, R71). -/
def dataWrite (s : State) : Instr → Option (Word × Width)
  | .sb _ rs1 off => some (s.storeAddress rs1 off, .byte)
  | .sh _ rs1 off => some (s.storeAddress rs1 off, .half)
  | .sw _ rs1 off => some (s.storeAddress rs1 off, .word)
  | _ => none

/-- The one data access an instruction makes, if any: "no instruction both reads and writes data memory"
(20_memory.md R59). -/
def dataAccess (s : State) (i : Instr) : Option (Word × Width) :=
  (dataRead s i).or (dataWrite s i)

/-- "word w is this instruction when `w & mask = match`", with the operands that the fields of w give
(30_encoding.md R100). -/
def Encodes (pattern mask : Word) (i : Word → Instr) : Prop :=
  ∀ w : Word, w &&& mask = pattern → decodeWord w = .instr (i w)

/-- `i` completes with `v` in `rd` (0 in x0) and nothing else changed but the pc, 4 further (10_state.md R23, R24,
R27). -/
def Yields (i : Instr) (rd : Reg) (v : Word) (s : State) : Prop :=
  ∃ t, exec i s = .next t ∧ s.WritesOnly rd t ∧ t.reg rd = if rd = 0 then 0 else v

/-- `i` completes with the pc at `target` and nothing else changed (44_branches.md R190). -/
def Goes (i : Instr) (target : Word) (s : State) : Prop :=
  ∃ t, exec i s = .next t ∧ s.SameRegs t ∧ s.SameMemory t ∧ s.SameRun t ∧ t.pc = target

/-- `i` completes with the low bytes of `v` stored at `ea`, little-endian, every other byte as before, nothing else
changed but the pc, 4 further (43_stores.md R175; 20_memory.md R55). -/
def Stores (i : Instr) (ea : Word) (n : Width) (v : Word) (s : State) : Prop :=
  ∃ t, exec i s = .next t ∧ s.SameRegs t ∧ s.SameRun t ∧ t.pc = s.pc + 4 ∧
    (∀ k, k < n.bytes → t.byteAt (ea.toNat + k) = v.extractLsb' (8 * k) 8) ∧
    (∀ a : Nat, a < ea.toNat ∨ ea.toNat + n.bytes ≤ a → t.byteAt a = s.byteAt a)

/-- The next step leaves the block Halted with cause `c`. -/
def HaltsWith (c : Cause) (s : State) : Prop :=
  ∃ t, step s = .next t ∧ t.status = .halted ∧ t.cause = c

/-- A step that changed only the run bookkeeping: registers, memory, pc and budget as before (60_exceptions.md
R271). -/
def State.Precise (s t : State) : Prop :=
  s.SameRegs t ∧ s.SameMemory t ∧ t.pc = s.pc ∧ t.budgetLeft = s.budgetLeft ∧ t.config = s.config

end Sys2Proof.Machine
end

