-- ==== Sys2Proof/Certificates/Slice0/Obligations.lean ====
section
/-! DEFINITION. The statements for the provers, from the numbered rules of spec/. Nothing is proved here. -/

open Sys2Proof Sys2Proof.Machine

/-! ### Decoder, reassembler, encoder (30_encoding.md; 00_scope.md R14, R15) -/

/-- One word of each family, as the spec writes it, decodes to the instruction it stands for (the examples of R121,
R141, R163, R178, R192, R205, R215, R223). -/
def Obligations.DecodeOfWrittenWords : Prop :=
  decodeWord 0x002081B3 = .instr (.add 3 1 2) ∧
  decodeWord 0xFFD08193 = .instr (.addi 3 1 0xFFD) ∧
  decodeWord 0x0000A183 = .instr (.lw 3 1 0) ∧
  decodeWord 0xFE20AE23 = .instr (.sw 2 1 (-4)) ∧
  decodeWord 0xFE209CE3 = .instr (.bne 1 2 (-8)) ∧
  decodeWord 0xFFDFF06F = .instr (.jal 0 (-4)) ∧
  decodeWord 0xDEADC2B7 = .instr (.lui 5 0xDEADC) ∧
  decodeWord 0x00100073 = .instr (.system 0 0 0 1) ∧
  decodeWord 0xFFFFFFAA = .instr (.op2a 31 7 31 31 0x7F) ∧
  decodeWord 0x022081B3 = .unassigned 0x022081B3 ∧
  decodeWord 0x00008067 = .illegal 0x00008067

/-- Decoding the bytes of a well-formed instruction gives it back, with every operand at every value the encoding
admits. -/
def Obligations.DecodeInvertsEncode : Prop :=
  ∀ i : Instr, i.wellFormed = true → decode (encodeBytes i) = .ok (i, [])

/-- A word that decodes to an instruction is that instruction's encoding, and the instruction is well-formed: no bit
of a word is dropped. -/
def Obligations.EncodeInvertsDecode : Prop :=
  ∀ (w : Word) (i : Instr), decodeWord w = .instr i → i.wellFormed = true ∧ encode i = w

/-- R89: the decoder returns a record for exactly the nine recognised opcodes and takes the fatal path for every other
opcode value; the low seven bits alone decide. -/
def Obligations.DecodeIsTotalOnTheNineOpcodes : Prop :=
  ∀ w : Word,
    ((decodeRecord w).isSome = true ↔
      w.toNat % 128 ∈ [0x33, 0x2A, 0x03, 0x13, 0x73, 0x23, 0x63, 0x37, 0x6F]) ∧
    (decodeWord w = .illegal w ↔
      w.toNat % 128 ∉ [0x33, 0x2A, 0x03, 0x13, 0x73, 0x23, 0x63, 0x37, 0x6F])

/-- R82 to R87: the positions of the fields, as quotients and remainders of the word. -/
def Obligations.FieldPositions : Prop :=
  ∀ w : Word,
    (rdOf w).val = w.toNat / 2 ^ 7 % 32 ∧ (funct3Of w).toNat = w.toNat / 2 ^ 12 % 8 ∧
    (rs1Of w).val = w.toNat / 2 ^ 15 % 32 ∧ (rs2Of w).val = w.toNat / 2 ^ 20 % 32 ∧
    (hi7Of w).toNat = w.toNat / 2 ^ 25 ∧ (lo5Of w).toNat = w.toNat / 2 ^ 7 % 32 ∧
    (imm12Of w).toNat = w.toNat / 2 ^ 20 ∧ (imm20Of w).toNat = w.toNat / 2 ^ 12 ∧
    (opcodeOf w).toNat = w.toNat % 2 ^ 7

/-- R100: a word is a row's instruction exactly when `w & mask = match`. -/
def Obligations.DecodeFollowsTheOpcodeTable : Prop :=
  ∀ (w : Word) (row : Row), row ∈ opcodeTable →
    (w &&& row.mask = row.pattern ↔ ∃ i, decodeWord w = .instr i ∧ i.mnemonic = row.mnemonic)

/-- R234: a word is an unassigned sub-encoding exactly when its opcode is recognised and it matches none of the 37
rows. -/
def Obligations.UnassignedExactlyWhenNoRowMatches : Prop :=
  opcodeTable.length = 37 ∧
  ∀ w : Word, decodeWord w = .unassigned w ↔
    opcodeOf w ∈ recognisedOpcodes ∧ ∀ row ∈ opcodeTable, w &&& row.mask ≠ row.pattern

/-- R99: encoding an offset into its fields and reassembling it gives it back over its whole range. The other direction,
that every value of the fields reassembles to an offset of the range whose encoding is those fields (the last three
clauses), is the spec's own inference from R95, R96 and R97. -/
def Obligations.OffsetsRoundTrip : Prop :=
  (∀ off : Word, -2048 ≤ off.toInt → off.toInt ≤ 2047 → storeOffset (storeHi off) (storeLo off) = off) ∧
  (∀ off : Word, -4096 ≤ off.toInt → off.toInt ≤ 4094 → off.toInt % 2 = 0 →
    branchOffset (branchHi off) (branchLo off) = off) ∧
  (∀ off : Word, -1048576 ≤ off.toInt → off.toInt ≤ 1048574 → off.toInt % 2 = 0 →
    jumpOffset (jumpImm off) = off) ∧
  (∀ hi lo, let off := storeOffset hi lo;
    -2048 ≤ off.toInt ∧ off.toInt ≤ 2047 ∧ storeHi off = hi ∧ storeLo off = lo) ∧
  (∀ hi lo, let off := branchOffset hi lo;
    -4096 ≤ off.toInt ∧ off.toInt ≤ 4094 ∧ off.toInt % 2 = 0 ∧ branchHi off = hi ∧ branchLo off = lo) ∧
  (∀ imm, let off := jumpOffset imm;
    -1048576 ≤ off.toInt ∧ off.toInt ≤ 1048574 ∧ off.toInt % 2 = 0 ∧ jumpImm off = imm)

/-- R95, R96, R97: where each bit of the three reassembled offsets comes from. -/
def Obligations.ReassemblerBits : Prop :=
  (∀ (hi : BitVec 7) (lo : BitVec 5) (k : Nat), k < 32 → (storeOffset hi lo).getLsbD k =
    if k < 5 then lo.getLsbD k else hi.getLsbD (min (k - 5) 6)) ∧
  (∀ (hi : BitVec 7) (lo : BitVec 5) (k : Nat), k < 32 → (branchOffset hi lo).getLsbD k =
    if k = 0 then false else if k < 5 then lo.getLsbD k else if k < 11 then hi.getLsbD (k - 5)
    else if k = 11 then lo.getLsbD 0 else hi.getLsbD 6) ∧
  (∀ (imm : BitVec 20) (k : Nat), k < 32 → (jumpOffset imm).getLsbD k =
    if k = 0 then false else if k < 11 then imm.getLsbD (k + 8) else if k = 11 then imm.getLsbD 8
    else if k < 20 then imm.getLsbD (k - 12) else imm.getLsbD 19)

/-- R14 and R15: the bits of `sext_N` and `zext_N`, and the two laws the source states, for every N in 1..32. -/
def Obligations.SignExtensionLaws : Prop :=
  ∀ n : Nat, 1 ≤ n → n ≤ 32 →
    (∀ (v : Word) (k : Nat), k < 32 → (sext n v).getLsbD k = v.getLsbD (min k (n - 1))) ∧
    (∀ (v : Word) (k : Nat), (zext n v).getLsbD k = (decide (k < n) && v.getLsbD k)) ∧
    (sext n (BitVec.ofNat 32 (2 ^ (n - 1)))).toInt = -((2 : Int) ^ (n - 1)) ∧
    (∀ v : Word, sext n (zext n (sext n v)) = sext n v)

/-! ### Memory and the arbiter (20_memory.md) -/

/-- R51, R53: an access is performed exactly when unsigned(addr) + n ≤ MEM_SIZE over natural numbers, whatever its
alignment, and otherwise raises MemoryAccessError with the base address. -/
def Obligations.AccessesObeyTheBoundsRule : Prop :=
  ∀ (s : State) (addr : Word) (n : Width) (v : Word),
    (addr.toNat + n.bytes ≤ s.config.memSize →
      (∃ w, s.memRead addr n = .ok w) ∧ ∃ t, s.memWrite addr n v = .ok t) ∧
    (s.config.memSize < addr.toNat + n.bytes →
      s.memRead addr n = .error (.memoryAccessError addr) ∧
      s.memWrite addr n v = .error (.memoryAccessError addr))

/-- R54: a valid read gives the n bytes at the address, little-endian; an invalid one raises. -/
def Obligations.ReadsAssembleLittleEndian : Prop :=
  ∀ (s : State) (addr : Word) (n : Width),
    (addr.toNat + n.bytes ≤ s.config.memSize →
      ∃ w, s.memRead addr n = .ok w ∧
        w.toNat = ∑ k ∈ Finset.range n.bytes, (s.byteAt (addr.toNat + k)).toNat * 256 ^ k) ∧
    (s.config.memSize < addr.toNat + n.bytes → s.memRead addr n = .error (.memoryAccessError addr))

/-- R55: a valid write stores the low n bytes of the value, little-endian, and changes no other byte and nothing but
memory, and keeps memory's canonical form; an invalid one raises and yields no memory. -/
def Obligations.WritesChangeExactlyTheirBytes : Prop :=
  ∀ (s : State) (addr : Word) (n : Width) (v : Word), Memory.wf s.mem = true →
    (addr.toNat + n.bytes ≤ s.config.memSize →
      ∃ t, s.memWrite addr n v = .ok t ∧ t = { s with mem := t.mem } ∧ Memory.wf t.mem = true ∧
        (∀ k, k < n.bytes → t.byteAt (addr.toNat + k) = v.extractLsb' (8 * k) 8) ∧
        (∀ a : Nat, a < addr.toNat ∨ addr.toNat + n.bytes ≤ a → t.byteAt a = s.byteAt a)) ∧
    (s.config.memSize < addr.toNat + n.bytes → s.memWrite addr n v = .error (.memoryAccessError addr))

/-- R56: what a valid store of width n wrote, a load of the same address and width returns; outside memory both raise.
That of a value wider than 8n bits the low 8n bits come back is the spec's own inference from R54 and R55. -/
def Obligations.StoreThenLoadRoundTrip : Prop :=
  ∀ (s : State) (addr : Word) (n : Width) (v : Word), Memory.wf s.mem = true →
    (addr.toNat + n.bytes ≤ s.config.memSize →
      ∃ t w, s.memWrite addr n v = .ok t ∧ t.memRead addr n = .ok w ∧ w.toNat = v.toNat % 2 ^ (8 * n.bytes)) ∧
    (s.config.memSize < addr.toNat + n.bytes →
      s.memWrite addr n v = .error (.memoryAccessError addr) ∧ s.memRead addr n = .error (.memoryAccessError addr))

/-! ### Register file (10_state.md) -/

/-- R23: x0 reads 0 in every state; a write to it is discarded; and after a step that completes an instruction the
stored x0 is 0 whatever it was before. -/
def Obligations.RegisterZeroIsHardWired : Prop :=
  (∀ s : State, s.reg 0 = 0) ∧
  (∀ (s : State) (v : Word), s.setReg 0 v = s) ∧
  (∀ s t : State, s.AtFetch → step s = .next t → t.faulted = false → t.regs[0] = 0)

/-- R24: an instruction that completes changes no general register but its destination. -/
def Obligations.OnlyTheDestinationRegisterChanges : Prop :=
  ∀ (i : Instr) (s t : State), exec i s = .next t → ∀ r : Reg, destination i ≠ some r → t.reg r = s.reg r

/-- R34, R59: an instruction that completes changes no byte of memory outside the store it makes. -/
def Obligations.OnlyTheStoredBytesChange : Prop :=
  ∀ (i : Instr) (s t : State), exec i s = .next t → ∀ a : Nat,
    (∀ ea n, dataWrite s i = some (ea, n) → a < ea.toNat ∨ ea.toNat + n.bytes ≤ a) → t.byteAt a = s.byteAt a

/-- R35, R37: no instruction can read the budget, the cause or `diag`: with other values there, it stops the same way
or leaves the same registers, pc and memory. -/
def Obligations.BookkeepingIsInvisibleToInstructions : Prop :=
  ∀ (i : Instr) (s : State) (b : Budget) (c : Cause) (d : Word),
    let u : State := { s with budgetLeft := b, cause := c, diag := d }
    (∀ t, exec i s = .next t →
      ∃ t', exec i u = .next t' ∧ t'.regs = t.regs ∧ t'.pc = t.pc ∧ t'.mem = t.mem ∧ t'.status = t.status) ∧
    (∀ f, exec i s = .fault f → exec i u = .fault f) ∧
    (∀ r, exec i s = .refused r → exec i u = .refused r)

/-! ### Register ALU (40_alu_register.md) -/

/-- R121, R122: the words of ADD and SUB, and their results modulo 2^32. -/
def Obligations.AddAndSubResults : Prop :=
  Encodes 0x00000033 0xFE00707F (fun w => .add (rdOf w) (rs1Of w) (rs2Of w)) ∧
  Encodes 0x40000033 0xFE00707F (fun w => .sub (rdOf w) (rs1Of w) (rs2Of w)) ∧
  ∀ (rd rs1 rs2 : Reg) (s : State),
    Yields (.add rd rs1 rs2) rd (BitVec.ofNat 32 ((s.reg rs1).toNat + (s.reg rs2).toNat)) s ∧
    Yields (.sub rd rs1 rs2) rd (BitVec.ofInt 32 ((s.reg rs1).toInt - (s.reg rs2).toInt)) s

/-- R123, R127, R128: the words of the shifts by `x[rs2][4:0]`, and their results as multiplication and floor division
by a power of two. -/
def Obligations.RegisterShiftResults : Prop :=
  Encodes 0x00001033 0xFE00707F (fun w => .sll (rdOf w) (rs1Of w) (rs2Of w)) ∧
  Encodes 0x00005033 0xFE00707F (fun w => .srl (rdOf w) (rs1Of w) (rs2Of w)) ∧
  Encodes 0x40005033 0xFE00707F (fun w => .sra (rdOf w) (rs1Of w) (rs2Of w)) ∧
  ∀ (rd rs1 rs2 : Reg) (s : State), let k := (s.reg rs2).toNat % 32;
    Yields (.sll rd rs1 rs2) rd (BitVec.ofNat 32 ((s.reg rs1).toNat * 2 ^ k)) s ∧
    Yields (.srl rd rs1 rs2) rd (BitVec.ofNat 32 ((s.reg rs1).toNat / 2 ^ k)) s ∧
    Yields (.sra rd rs1 rs2) rd (BitVec.ofInt 32 ((s.reg rs1).toInt / 2 ^ k)) s

/-- R124, R125: the words of the set instructions, which write 1 or 0 by the signed and the unsigned order. -/
def Obligations.RegisterCompareResults : Prop :=
  Encodes 0x00002033 0xFE00707F (fun w => .slt (rdOf w) (rs1Of w) (rs2Of w)) ∧
  Encodes 0x00003033 0xFE00707F (fun w => .sltu (rdOf w) (rs1Of w) (rs2Of w)) ∧
  ∀ (rd rs1 rs2 : Reg) (s : State),
    Yields (.slt rd rs1 rs2) rd (if (s.reg rs1).toInt < (s.reg rs2).toInt then 1 else 0) s ∧
    Yields (.sltu rd rs1 rs2) rd (if (s.reg rs1).toNat < (s.reg rs2).toNat then 1 else 0) s

/-- R126, R129, R130: the words of XOR, OR and AND, and their results bit by bit. -/
def Obligations.RegisterBitwiseResults : Prop :=
  Encodes 0x00004033 0xFE00707F (fun w => .xor (rdOf w) (rs1Of w) (rs2Of w)) ∧
  Encodes 0x00006033 0xFE00707F (fun w => .or (rdOf w) (rs1Of w) (rs2Of w)) ∧
  Encodes 0x00007033 0xFE00707F (fun w => .and (rdOf w) (rs1Of w) (rs2Of w)) ∧
  ∀ (rd rs1 rs2 : Reg) (s : State), ∃ x o a : Word,
    (∀ k, x.getLsbD k = ((s.reg rs1).getLsbD k != (s.reg rs2).getLsbD k)) ∧
    (∀ k, o.getLsbD k = ((s.reg rs1).getLsbD k || (s.reg rs2).getLsbD k)) ∧
    (∀ k, a.getLsbD k = ((s.reg rs1).getLsbD k && (s.reg rs2).getLsbD k)) ∧
    Yields (.xor rd rs1 rs2) rd x s ∧ Yields (.or rd rs1 rs2) rd o s ∧ Yields (.and rd rs1 rs2) rd a s

/-! ### Immediate ALU (41_alu_immediate.md) -/

/-- R141: the words of ADDI, which adds the signed value of the 12-bit field modulo 2^32. -/
def Obligations.AddiResult : Prop :=
  Encodes 0x00000013 0x0000707F (fun w => .addi (rdOf w) (rs1Of w) (imm12Of w)) ∧
  ∀ (rd rs1 : Reg) (imm : BitVec 12) (s : State),
    Yields (.addi rd rs1 imm) rd (BitVec.ofInt 32 ((s.reg rs1).toInt + imm.toInt)) s

/-- R142, R143: the words of SLTI and SLTIU; SLTI compares as signed, SLTIU compares with the sign-extended immediate
read as unsigned. -/
def Obligations.ImmediateCompareResults : Prop :=
  Encodes 0x00002013 0x0000707F (fun w => .slti (rdOf w) (rs1Of w) (imm12Of w)) ∧
  Encodes 0x00003013 0x0000707F (fun w => .sltiu (rdOf w) (rs1Of w) (imm12Of w)) ∧
  ∀ (rd rs1 : Reg) (imm : BitVec 12) (s : State),
    Yields (.slti rd rs1 imm) rd (if (s.reg rs1).toInt < imm.toInt then 1 else 0) s ∧
    Yields (.sltiu rd rs1 imm) rd
      (if (s.reg rs1).toNat < (BitVec.ofInt 32 imm.toInt).toNat then 1 else 0) s

/-- R144, R145, R146: the words of XORI, ORI and ANDI, and their results bit by bit, bit 11 of the field standing for
every higher bit. -/
def Obligations.ImmediateBitwiseResults : Prop :=
  Encodes 0x00004013 0x0000707F (fun w => .xori (rdOf w) (rs1Of w) (imm12Of w)) ∧
  Encodes 0x00006013 0x0000707F (fun w => .ori (rdOf w) (rs1Of w) (imm12Of w)) ∧
  Encodes 0x00007013 0x0000707F (fun w => .andi (rdOf w) (rs1Of w) (imm12Of w)) ∧
  ∀ (rd rs1 : Reg) (imm : BitVec 12) (s : State), ∃ x o a : Word,
    (∀ k, k < 32 → x.getLsbD k = ((s.reg rs1).getLsbD k != imm.getLsbD (min k 11))) ∧
    (∀ k, k < 32 → o.getLsbD k = ((s.reg rs1).getLsbD k || imm.getLsbD (min k 11))) ∧
    (∀ k, k < 32 → a.getLsbD k = ((s.reg rs1).getLsbD k && imm.getLsbD (min k 11))) ∧
    Yields (.xori rd rs1 imm) rd x s ∧ Yields (.ori rd rs1 imm) rd o s ∧ Yields (.andi rd rs1 imm) rd a s

/-- R147, R148, R149: the words of the shifts by the 5-bit amount, and their results. -/
def Obligations.ImmediateShiftResults : Prop :=
  Encodes 0x00001013 0xFE00707F (fun w => .slli (rdOf w) (rs1Of w) (w.extractLsb' 20 5)) ∧
  Encodes 0x00005013 0xFE00707F (fun w => .srli (rdOf w) (rs1Of w) (w.extractLsb' 20 5)) ∧
  Encodes 0x40005013 0xFE00707F (fun w => .srai (rdOf w) (rs1Of w) (w.extractLsb' 20 5)) ∧
  ∀ (rd rs1 : Reg) (shamt : BitVec 5) (s : State),
    Yields (.slli rd rs1 shamt) rd (BitVec.ofNat 32 ((s.reg rs1).toNat * 2 ^ shamt.toNat)) s ∧
    Yields (.srli rd rs1 shamt) rd (BitVec.ofNat 32 ((s.reg rs1).toNat / 2 ^ shamt.toNat)) s ∧
    Yields (.srai rd rs1 shamt) rd (BitVec.ofInt 32 ((s.reg rs1).toInt / 2 ^ shamt.toNat)) s

/-! ### Loads and stores (42_loads.md, 43_stores.md) -/

/-- R161, R164: the words of LB and LBU; their results inside memory; outside, they raise, into x0 as well. -/
def Obligations.ByteLoadResults : Prop :=
  Encodes 0x00000003 0x0000707F (fun w => .lb (rdOf w) (rs1Of w) (imm12Of w)) ∧
  Encodes 0x00004003 0x0000707F (fun w => .lbu (rdOf w) (rs1Of w) (imm12Of w)) ∧
  ∀ (rd rs1 : Reg) (imm : BitVec 12) (s : State),
    let ea := BitVec.ofInt 32 ((s.reg rs1).toInt + imm.toInt);
    (ea.toNat + 1 ≤ s.config.memSize →
      Yields (.lb rd rs1 imm) rd (BitVec.ofInt 32 (s.byteAt ea.toNat).toInt) s ∧
      Yields (.lbu rd rs1 imm) rd (BitVec.ofNat 32 (s.byteAt ea.toNat).toNat) s) ∧
    (s.config.memSize < ea.toNat + 1 →
      exec (.lb rd rs1 imm) s = .fault (.memoryAccessError ea) ∧
      exec (.lbu rd rs1 imm) s = .fault (.memoryAccessError ea))

/-- R162, R165: the words of LH and LHU; their results inside memory, at any alignment; outside, they raise. -/
def Obligations.HalfwordLoadResults : Prop :=
  Encodes 0x00001003 0x0000707F (fun w => .lh (rdOf w) (rs1Of w) (imm12Of w)) ∧
  Encodes 0x00005003 0x0000707F (fun w => .lhu (rdOf w) (rs1Of w) (imm12Of w)) ∧
  ∀ (rd rs1 : Reg) (imm : BitVec 12) (s : State),
    let ea := BitVec.ofInt 32 ((s.reg rs1).toInt + imm.toInt);
    let h : BitVec 16 := s.byteAt (ea.toNat + 1) ++ s.byteAt ea.toNat;
    (ea.toNat + 2 ≤ s.config.memSize →
      Yields (.lh rd rs1 imm) rd (BitVec.ofInt 32 h.toInt) s ∧
      Yields (.lhu rd rs1 imm) rd (BitVec.ofNat 32 h.toNat) s) ∧
    (s.config.memSize < ea.toNat + 2 →
      exec (.lh rd rs1 imm) s = .fault (.memoryAccessError ea) ∧
      exec (.lhu rd rs1 imm) s = .fault (.memoryAccessError ea))

/-- R163: the words of LW; its result inside memory, at any alignment; outside, it raises. -/
def Obligations.WordLoadResult : Prop :=
  Encodes 0x00002003 0x0000707F (fun w => .lw (rdOf w) (rs1Of w) (imm12Of w)) ∧
  ∀ (rd rs1 : Reg) (imm : BitVec 12) (s : State),
    let ea := BitVec.ofInt 32 ((s.reg rs1).toInt + imm.toInt);
    (ea.toNat + 4 ≤ s.config.memSize →
      Yields (.lw rd rs1 imm) rd
        (s.byteAt (ea.toNat + 3) ++ s.byteAt (ea.toNat + 2) ++ s.byteAt (ea.toNat + 1) ++ s.byteAt ea.toNat) s) ∧
    (s.config.memSize < ea.toNat + 4 → exec (.lw rd rs1 imm) s = .fault (.memoryAccessError ea))


/-- R176, R177, R178: the words of the three stores; what they store inside memory, at any alignment; outside, they
raise. -/
def Obligations.StoreResults : Prop :=
  Encodes 0x00000023 0x0000707F (fun w => .sb (rs2Of w) (rs1Of w) (storeOffset (hi7Of w) (lo5Of w))) ∧
  Encodes 0x00001023 0x0000707F (fun w => .sh (rs2Of w) (rs1Of w) (storeOffset (hi7Of w) (lo5Of w))) ∧
  Encodes 0x00002023 0x0000707F (fun w => .sw (rs2Of w) (rs1Of w) (storeOffset (hi7Of w) (lo5Of w))) ∧
  ∀ (rs2 rs1 : Reg) (off : Word) (s : State), Memory.wf s.mem = true →
    let ea := s.storeAddress rs1 off;
    ea = BitVec.ofInt 32 ((s.reg rs1).toInt + off.toInt) ∧
    (ea.toNat + 1 ≤ s.config.memSize → Stores (.sb rs2 rs1 off) ea .byte (s.reg rs2) s) ∧
    (ea.toNat + 2 ≤ s.config.memSize → Stores (.sh rs2 rs1 off) ea .half (s.reg rs2) s) ∧
    (ea.toNat + 4 ≤ s.config.memSize → Stores (.sw rs2 rs1 off) ea .word (s.reg rs2) s) ∧
    (s.config.memSize < ea.toNat + 1 → exec (.sb rs2 rs1 off) s = .fault (.memoryAccessError ea)) ∧
    (s.config.memSize < ea.toNat + 2 → exec (.sh rs2 rs1 off) s = .fault (.memoryAccessError ea)) ∧
    (s.config.memSize < ea.toNat + 4 → exec (.sw rs2 rs1 off) s = .fault (.memoryAccessError ea))


/-- R66: a word stored at the address of the next instruction is what the next fetch reads. -/
def Obligations.NextFetchSeesTheStore : Prop :=
  ∀ (rs2 rs1 : Reg) (off : Word) (s : State), Memory.wf s.mem = true →
    s.storeAddress rs1 off = s.pc + 4 → (s.pc + 4).toNat + 4 ≤ s.config.memSize →
    ∃ t, exec (.sw rs2 rs1 off) s = .next t ∧ t.memRead t.pc .word = .ok (s.reg rs2)

/-! ### Branches, jump, upper immediate (44_branches.md, 45_jumps.md, 46_upper_immediate.md) -/

/-- R191, R192: the words of BEQ and BNE, and where they go. -/
def Obligations.EqualityBranchTargets : Prop :=
  Encodes 0x00000063 0x0000707F (fun w => .beq (rs1Of w) (rs2Of w) (branchOffset (hi7Of w) (lo5Of w))) ∧
  Encodes 0x00001063 0x0000707F (fun w => .bne (rs1Of w) (rs2Of w) (branchOffset (hi7Of w) (lo5Of w))) ∧
  ∀ (rs1 rs2 : Reg) (off : Word) (s : State), let there := BitVec.ofInt 32 (s.pc.toNat + off.toInt);
    Goes (.beq rs1 rs2 off) (if (s.reg rs1).toNat = (s.reg rs2).toNat then there else s.pc + 4) s ∧
    Goes (.bne rs1 rs2 off) (if (s.reg rs1).toNat = (s.reg rs2).toNat then s.pc + 4 else there) s

/-- R193, R194: the words of BLT and BGE, and where they go by the signed order. -/
def Obligations.SignedBranchTargets : Prop :=
  Encodes 0x00004063 0x0000707F (fun w => .blt (rs1Of w) (rs2Of w) (branchOffset (hi7Of w) (lo5Of w))) ∧
  Encodes 0x00005063 0x0000707F (fun w => .bge (rs1Of w) (rs2Of w) (branchOffset (hi7Of w) (lo5Of w))) ∧
  ∀ (rs1 rs2 : Reg) (off : Word) (s : State), let there := BitVec.ofInt 32 (s.pc.toNat + off.toInt);
    Goes (.blt rs1 rs2 off) (if (s.reg rs1).toInt < (s.reg rs2).toInt then there else s.pc + 4) s ∧
    Goes (.bge rs1 rs2 off) (if (s.reg rs2).toInt ≤ (s.reg rs1).toInt then there else s.pc + 4) s

/-- R195, R196: the words of BLTU and BGEU, and where they go by the unsigned order. -/
def Obligations.UnsignedBranchTargets : Prop :=
  Encodes 0x00006063 0x0000707F (fun w => .bltu (rs1Of w) (rs2Of w) (branchOffset (hi7Of w) (lo5Of w))) ∧
  Encodes 0x00007063 0x0000707F (fun w => .bgeu (rs1Of w) (rs2Of w) (branchOffset (hi7Of w) (lo5Of w))) ∧
  ∀ (rs1 rs2 : Reg) (off : Word) (s : State), let there := BitVec.ofInt 32 (s.pc.toNat + off.toInt);
    Goes (.bltu rs1 rs2 off) (if (s.reg rs1).toNat < (s.reg rs2).toNat then there else s.pc + 4) s ∧
    Goes (.bgeu rs1 rs2 off) (if (s.reg rs2).toNat ≤ (s.reg rs1).toNat then there else s.pc + 4) s

/-- R205: the words of JAL, which links pc + 4 and goes to pc + J_off, both modulo 2^32; into x0 nothing is written. -/
def Obligations.JalLinksAndJumps : Prop :=
  Encodes 0x0000006F 0x0000007F (fun w => .jal (rdOf w) (jumpOffset (imm20Of w))) ∧
  ∀ (rd : Reg) (off : Word) (s : State), ∃ t, exec (.jal rd off) s = .next t ∧
    s.SameRegsBut rd t ∧ s.SameMemory t ∧ s.SameRun t ∧
    t.reg rd = (if rd = 0 then 0 else BitVec.ofNat 32 (s.pc.toNat + 4)) ∧
    t.pc = BitVec.ofInt 32 (s.pc.toNat + off.toInt)

/-- R215: the words of LUI, which puts the 20-bit field above twelve zeros. -/
def Obligations.LuiResult : Prop :=
  Encodes 0x00000037 0x0000007F (fun w => .lui (rdOf w) (imm20Of w)) ∧
  ∀ (rd : Reg) (imm : BitVec 20) (s : State), Yields (.lui rd imm) rd (BitVec.ofNat 32 (imm.toNat * 4096)) s

/-- R28: whatever instruction of a well-formed encoding runs, an even pc stays even; so does a step that neither
launches nor resets. -/
def Obligations.EvenPcStaysEven : Prop :=
  ∀ s t : State, s.status = .running → s.hostAction ≠ .reset → s.pc.toNat % 2 = 0 → step s = .next t →
    t.pc.toNat % 2 = 0

/-! ### SYSTEM, OP2A, unassigned sub-encodings (47_system.md, 48_op2a_unassigned.md) -/

/-- R221: SYSTEM advances the pc, changes no register and no byte, and ends the run with SystemExit exactly when
SYSTEM_HALTS, whatever its fields. -/
def Obligations.SystemAdvancesAndExits : Prop :=
  ∀ (rd : Reg) (f3 : BitVec 3) (rs1 : Reg) (imm : BitVec 12) (s : State),
    ∃ t, exec (.system rd f3 rs1 imm) s = .next t ∧ s.SameRegs t ∧ s.SameMemory t ∧ t.pc = s.pc + 4 ∧
      t.config = s.config ∧ t.budgetLeft = s.budgetLeft ∧ t.ir = s.ir ∧ t.host = s.host ∧
      (s.config.systemHalts = true → t.status = .halted ∧ t.cause = .systemExit) ∧
      (s.config.systemHalts = false → s.SameRun t)

/-- R220, R222: every one of the words of opcode 0x73 is SYSTEM, whatever its other bits; a step that fetches one
advances the pc, changes no register and no byte, counts against the budget, and enters Halted with SystemExit exactly
when SYSTEM_HALTS. -/
def Obligations.EveryWordOfOpcode73IsSystem : Prop :=
  Encodes 0x00000073 0x0000007F (fun w => .system (rdOf w) (funct3Of w) (rs1Of w) (imm12Of w)) ∧
  ∀ (s : State) (w : Word), s.AtFetch → s.memRead s.pc .word = .ok w → w.toNat % 128 = 0x73 →
    ∃ t, step s = .next t ∧ s.SameRegs t ∧ s.SameMemory t ∧ t.pc = s.pc + 4 ∧
      t.budgetLeft = s.budgetLeft.countDown ∧ t.regs[0] = 0 ∧
      (s.config.systemHalts = true → t.status = .halted ∧ t.cause = .systemExit) ∧
      (s.config.systemHalts = false → t.status = .running ∧ t.phase = .fetch)

/-- R231: OP2A has no defined effect: its meaning refuses, and so does a step that fetches it. -/
def Obligations.Op2aIsRefused : Prop :=
  (∀ (rd : Reg) (f3 : BitVec 3) (rs1 rs2 : Reg) (f7 : BitVec 7) (s : State),
    exec (.op2a rd f3 rs1 rs2 f7) s = .refused .op2aEffectUnspecified) ∧
  ∀ (s : State) (w : Word), s.AtFetch → s.memRead s.pc .word = .ok w → w.toNat % 128 = 0x2A →
    step s = .refused .op2aEffectUnspecified

/-- R233: a step that fetches an unassigned sub-encoding is refused: not a DecodeError, not a no-op, not the nearest
assigned instruction. -/
def Obligations.UnassignedSubEncodingsAreRefused : Prop :=
  ∀ (s : State) (w : Word), s.AtFetch → s.memRead s.pc .word = .ok w → opcodeOf w ∈ recognisedOpcodes →
    (∀ row ∈ opcodeTable, w &&& row.mask ≠ row.pattern) → step s = .refused (.unassignedSubEncoding w)

/-! ### The state machine (49_fetch_execute_loop.md, 60_exceptions.md) -/

/-- R252: when the four bytes at the pc decode to an instruction, the step is that instruction's meaning from the state
with the host's action taken and IR latched; a completed instruction has x0 zeroed and the budget counted, a raise
leaves the machine Halted with cause and diag and everything else as the pass began. -/
def Obligations.StepRunsTheDecodedInstruction : Prop :=
  ∀ (s : State) (i : Instr), s.AtFetch → s.pc.toNat + 4 ≤ s.config.memSize →
    decode [s.byteAt s.pc.toNat, s.byteAt (s.pc.toNat + 1), s.byteAt (s.pc.toNat + 2), s.byteAt (s.pc.toNat + 3)]
      = .ok (i, []) →
    let b : State := { s with host := s.host.tail,
                              ir := wordOfBytes (s.byteAt s.pc.toNat) (s.byteAt (s.pc.toNat + 1))
                                (s.byteAt (s.pc.toNat + 2)) (s.byteAt (s.pc.toNat + 3)) }
    (∀ t, exec i b = .next t →
      step s = .next { t with regs := t.regs.set 0 0, budgetLeft := t.budgetLeft.countDown, phase := .fetch }) ∧
    (∀ f, exec i b = .fault f →
      step s = .next { b with status := .halted, cause := f.cause, diag := f.diag, phase := .fetch }) ∧
    (∀ r, exec i b = .refused r → step s = .refused r)

/-- R241: the fetch puts the word at the pc in IR, whatever the pc's alignment and whatever follows; a fetch that ends
outside memory leaves the block Halted with MemoryAccessError and diag = pc, everything else as it was. -/
def Obligations.FetchReadsTheWordAtThePc : Prop :=
  ∀ s : State, s.AtFetch →
    (∀ t, s.pc.toNat + 4 ≤ s.config.memSize → step s = .next t →
      t.ir = s.byteAt (s.pc.toNat + 3) ++ s.byteAt (s.pc.toNat + 2) ++ s.byteAt (s.pc.toNat + 1) ++
        s.byteAt s.pc.toNat) ∧
    (s.config.memSize < s.pc.toNat + 4 →
      ∃ t, step s = .next t ∧ t.status = .halted ∧ t.cause = .memoryAccessError ∧ t.diag = s.pc ∧ s.Precise t)

/-- R267: a fetched word of an unrecognised opcode leaves the block Halted with DecodeError and diag = the word, the pc
at its address, everything else as it was; a word of a recognised opcode never raises DecodeError. -/
def Obligations.UnrecognisedOpcodeHalts : Prop :=
  ∀ (s : State) (w : Word), s.AtFetch → s.memRead s.pc .word = .ok w →
    (w.toNat % 128 ∉ [0x03, 0x13, 0x23, 0x2A, 0x33, 0x37, 0x63, 0x6F, 0x73] →
      ∃ t, step s = .next t ∧ t.status = .halted ∧ t.cause = .decodeError ∧ t.diag = w ∧ s.Precise t) ∧
    (w.toNat % 128 ∈ [0x03, 0x13, 0x23, 0x2A, 0x33, 0x37, 0x63, 0x6F, 0x73] → ¬ HaltsWith .decodeError s)

/-- R271: faults are precise: a step that ends in a fault, of a whole pass or of a held one, changed no register, no
byte, not the pc and not the budget. -/
def Obligations.FaultsArePrecise : Prop :=
  ∀ s t : State, s.status = .running → step s = .next t → t.faulted = true → s.Precise t

/-- R268: after a step from a step boundary that ends in MemoryAccessError, diag is the pc exactly when the fetch was
the access that failed. -/
def Obligations.DiagIsThePcExactlyForFetchFaults : Prop :=
  ∀ s t : State, s.status = .running → s.phase = .fetch → step s = .next t → t.status = .halted →
    t.cause = .memoryAccessError → (t.diag = t.pc ↔ s.config.memSize < s.pc.toNat + 4)

/-- R249: from a step boundary, with the host asserting nothing or abort, a step ends the run in exactly these five
ways, abort before an exhausted budget before the fetch before the opcode before the data access. That order is R272,
the spec's own inference from R252. A hold is in RunsEndUnderHold. -/
def Obligations.RunsEndInExactlyFiveWays : Prop :=
  ∀ s : State, s.status = .running → s.phase = .fetch → s.hostAction = .quiet ∨ s.hostAction = .abort →
    ¬ HaltsWith .notHalted s ∧
    (HaltsWith .externalAbort s ↔ s.hostAction = .abort) ∧
    (HaltsWith .budgetExhausted s ↔ s.hostAction = .quiet ∧ s.budgetLeft = .bounded 0) ∧
    (HaltsWith .memoryAccessError s ↔ s.AtFetch ∧
      (s.config.memSize < s.pc.toNat + 4 ∨
        ∃ w i ea n, s.memRead s.pc .word = .ok w ∧ decodeWord w = .instr i ∧ dataAccess s i = some (ea, n) ∧
          s.config.memSize < ea.toNat + n.bytes)) ∧
    (HaltsWith .decodeError s ↔ s.AtFetch ∧
      ∃ w, s.memRead s.pc .word = .ok w ∧ opcodeOf w ∉ recognisedOpcodes) ∧
    (HaltsWith .systemExit s ↔ s.AtFetch ∧ s.config.systemHalts = true ∧
      ∃ w, s.memRead s.pc .word = .ok w ∧ opcodeOf w = 0x73)

/-- R248: a spent budget halts the run before any fetch, with the state intact; a completed step takes 1 from a numeric
budget and leaves an unbounded one; a faulting instruction is not counted. -/
def Obligations.BudgetCountsCompletedInstructions : Prop :=
  (∀ s : State, s.status = .running → s.phase = .fetch → s.hostAction = .quiet → s.budgetLeft = .bounded 0 →
    ∃ t, step s = .next t ∧ t.status = .halted ∧ t.cause = .budgetExhausted ∧ s.Precise t) ∧
  (∀ s t : State, s.AtFetch → step s = .next t →
    (t.faulted = true → t.budgetLeft = s.budgetLeft) ∧
    (t.faulted = false →
      (s.budgetLeft = .unbounded ∧ t.budgetLeft = .unbounded) ∨
      ∃ n, s.budgetLeft = .bounded (n + 1) ∧ t.budgetLeft = .bounded n))

/-- R248; R322, the spec's own inference from R248 and R249: with a numeric budget N every run at which the host asserts
nothing is over within N completed steps (the step after the last finds the budget spent), or was refused on the
way. -/
def Obligations.BoundedRunsEnd : Prop :=
  ∀ (n : Nat) (s : State), s.status = .running → s.phase = .fetch → s.host = [] → s.budgetLeft = .bounded n →
    (∃ t : State, Host.Core.run core (n + 1) s = .next t ∧ t.isOver = true) ∨
    (∃ r : Refusal, Host.Core.run core (n + 1) s = .refused r)

/-- R254: a Halted state never changes except by reset, whatever else the host does. -/
def Obligations.HaltedStatesNeverChange : Prop :=
  ∀ (k : Nat) (s : State), s.status = .halted → HostAction.reset ∉ s.host →
    Host.Core.run core k s = .next { s with host := s.host.drop k }

/-- R235: a block at a step boundary whose fetched word, if the fetch succeeds, matches one of the 36 rows other than
OP2A, or is of an unrecognised opcode, always has a next state: no refusal, and no fault of the step itself. -/
def Obligations.WellFormedWordsAreNeverRefused : Prop :=
  ∀ s : State, s.status = .running → s.phase = .fetch → s.hostAction = .quiet →
    (∀ w, s.memRead s.pc .word = .ok w → safeWord w = true ∨ opcodeOf w ∉ recognisedOpcodes) →
    ∃ t, step s = .next t

/-! ### Host interface, reset and launch (10_state.md, 70_reset_and_hazards.md) -/

/-- R43: what reset leaves, of what the spec states. -/
def Obligations.ResetState : Prop :=
  (∀ r : Reg, State.reset.reg r = 0) ∧ (∀ a : Nat, State.reset.byteAt a = 0) ∧
  State.reset.status = .idle ∧ State.reset.phase = .fetch

/-- R300: reset from any status zeroes registers and memory and leaves the block Idle at Fetch. That it leaves the
configuration is the model's choice, log 9: MEM_SIZE and SYSTEM_HALTS are parameters (R9, R11). -/
def Obligations.ResetFromAnyStatus : Prop :=
  ∀ s : State, s.hostAction = .reset →
    ∃ t, step s = .next t ∧ (∀ r : Reg, t.reg r = 0) ∧ (∀ a : Nat, t.byteAt a = 0) ∧
      t.status = .idle ∧ t.phase = .fetch ∧ t.config = s.config

/-- R44, R302: launch of an image of words inside memory while Idle: registers, pc and budget as given, x0
zero, the words little-endian from the base address on and zero elsewhere, Running at Fetch. -/
def Obligations.LaunchState : Prop :=
  ∀ (s : State) (p : Launch) (base : Nat) (words : List Word), s.status = .idle →
    s.hostAction = .launch p → p.image = loaderImage base words →
    base + 4 * words.length ≤ s.config.memSize →
    ∃ t, step s = .next t ∧ t.status = .running ∧ t.phase = .fetch ∧ t.pc = p.pc ∧
      t.budgetLeft = p.budget ∧ t.reg 0 = 0 ∧ (∀ r : Reg, r ≠ 0 → t.reg r = p.regs[r.val]) ∧
      (∀ (i : Nat) (h : i < words.length) (j : Nat), j < 4 →
        t.byteAt (base + 4 * i + j) = words[i].extractLsb' (8 * j) 8) ∧
      (∀ a : Nat, a < base ∨ base + 4 * words.length ≤ a → t.byteAt a = 0)

/-- R250: an abort at a step boundary halts the run with ExternalAbort, everything else as the last completed step left
it; the host cannot abort in the middle of a step. That an abort asserted in the middle of a held step lets the step go
on as if nothing were asserted, and is not remembered, is the model's choice, log 20. -/
def Obligations.AbortActsAtStepBoundariesOnly : Prop :=
  (∀ s : State, s.status = .running → s.phase = .fetch → s.hostAction = .abort →
    ∃ t, step s = .next t ∧ t.status = .halted ∧ t.cause = .externalAbort ∧ s.Precise t) ∧
  (∀ s : State, s.status = .running → s.phase = .tracePrompt → s.hostAction = .abort →
    step s = step { s with host := .quiet :: s.host.tail })

/-- R42: a hold of any length changes no result: the pass that is held k + 1 times and then released ends as it would
have ended without the hold. -/
def Obligations.HoldChangesNoResult : Prop :=
  ∀ (k : Nat) (s : State) (rest : List HostAction) (w : Word), s.status = .running → s.phase = .fetch →
    s.budgetLeft.spent = false → s.host = List.replicate (k + 1) .hold ++ rest → rest.headD .quiet = .quiet →
    s.memRead s.pc .word = .ok w → opcodeOf w ∈ recognisedOpcodes →
    Host.Core.run core (k + 2) s = step { s with host := rest }

/-- R8, R9, R11: no step changes the configuration; of a step that resets, this is the model's choice, log 9. -/
def Obligations.StepsKeepTheConfiguration : Prop :=
  ∀ s t : State, step s = .next t → t.config = s.config

/-- The reset state satisfies the invariant; the values it rests on that the spec does not state are log 1 (MEM_SIZE)
and log 5 (cause). -/
def Obligations.ResetSatisfiesTheInvariant : Prop := State.reset.Inv

/-- Every step keeps the invariant, from every state that satisfies it: memory in canonical form and inside the arena,
the stored x0 zero, a pass held only while Running, Halted exactly when a cause is recorded. -/
def Obligations.StepsKeepTheInvariant : Prop :=
  ∀ s t : State, s.Inv → step s = .next t → t.Inv

/-- R42, R243, R249: what RunsEndInExactlyFiveWays leaves out. Under hold, a step from a boundary ends the run only by a
spent budget, a fetch outside memory or an unrecognised opcode, and otherwise rests in Trace/Prompt with nothing changed
but IR; the step that the release lets go on ends it only by its data access or by SYSTEM. That a pass held in
Trace/Prompt is a state between two steps is the model's choice, log 15. -/
def Obligations.RunsEndUnderHold : Prop :=
  (∀ s : State, s.status = .running → s.phase = .fetch → s.hostAction = .hold →
    (HaltsWith .budgetExhausted s ↔ s.budgetLeft = .bounded 0) ∧
    (HaltsWith .memoryAccessError s ↔ s.budgetLeft ≠ .bounded 0 ∧ s.config.memSize < s.pc.toNat + 4) ∧
    (HaltsWith .decodeError s ↔ s.budgetLeft ≠ .bounded 0 ∧
      ∃ w, s.memRead s.pc .word = .ok w ∧ opcodeOf w ∉ recognisedOpcodes) ∧
    (∀ c, HaltsWith c s → c = .budgetExhausted ∨ c = .memoryAccessError ∨ c = .decodeError) ∧
    (∀ w, s.budgetLeft ≠ .bounded 0 → s.memRead s.pc .word = .ok w → opcodeOf w ∈ recognisedOpcodes →
      step s = .next { s with host := s.host.tail, ir := w, phase := .tracePrompt })) ∧
  (∀ s : State, s.Inv → s.status = .running → s.phase = .tracePrompt → s.hostAction = .quiet →
    (HaltsWith .memoryAccessError s ↔ ∃ i ea n, decodeWord s.ir = .instr i ∧ dataAccess s i = some (ea, n) ∧
      s.config.memSize < ea.toNat + n.bytes) ∧
    (HaltsWith .systemExit s ↔ s.config.systemHalts = true ∧ opcodeOf s.ir = 0x73) ∧
    (∀ c, HaltsWith c s → c = .memoryAccessError ∨ c = .systemExit))
end

