-- ==== Sys2Proof/Laws/Decode.lean ====
section
/-! SUPPORT. What the decoder and the encoder do: the fields of a packed word, and what each format decodes to. -/

namespace Sys2Proof

/-! ### Registers and their bits -/

@[simp] theorem regOfBits_bitsOfReg (r : Reg) : regOfBits (bitsOfReg r) = r := by
  apply Fin.ext
  simp [regOfBits, bitsOfReg]

@[simp] theorem bitsOfReg_regOfBits (b : BitVec 5) : bitsOfReg (regOfBits b) = b := by
  simp [regOfBits, bitsOfReg]

/-! ### The fields of a packed word (30_encoding.md R82 to R87) -/

section
variable (f7 : BitVec 7) (rs2 rs1 rd : Reg) (f3 : BitVec 3) (op : BitVec 7) (imm : BitVec 12) (lo : BitVec 5)
  (upper : BitVec 20)

theorem getLsbD_packR (k : Nat) : (packR f7 rs2 rs1 f3 rd op).getLsbD k =
    if k < 7 then op.getLsbD k else if k < 12 then (bitsOfReg rd).getLsbD (k - 7)
    else if k < 15 then f3.getLsbD (k - 12) else if k < 20 then (bitsOfReg rs1).getLsbD (k - 15)
    else if k < 25 then (bitsOfReg rs2).getLsbD (k - 20) else f7.getLsbD (k - 25) := by
  show BitVec.getLsbD (w := 7 + 5 + 5 + 3 + 5 + 7) (f7 ++ bitsOfReg rs2 ++ bitsOfReg rs1 ++ f3 ++ bitsOfReg rd ++ op) k = _
  simp only [BitVec.getLsbD_append, Nat.sub_sub]
  split_ifs <;> first | rfl | omega

theorem getLsbD_packI (k : Nat) : (packI imm rs1 f3 rd op).getLsbD k =
    if k < 7 then op.getLsbD k else if k < 12 then (bitsOfReg rd).getLsbD (k - 7)
    else if k < 15 then f3.getLsbD (k - 12) else if k < 20 then (bitsOfReg rs1).getLsbD (k - 15)
    else imm.getLsbD (k - 20) := by
  show BitVec.getLsbD (w := 12 + 5 + 3 + 5 + 7) (imm ++ bitsOfReg rs1 ++ f3 ++ bitsOfReg rd ++ op) k = _
  simp only [BitVec.getLsbD_append, Nat.sub_sub]
  split_ifs <;> first | rfl | omega

theorem getLsbD_packS (k : Nat) : (packS f7 rs2 rs1 f3 lo op).getLsbD k =
    if k < 7 then op.getLsbD k else if k < 12 then lo.getLsbD (k - 7)
    else if k < 15 then f3.getLsbD (k - 12) else if k < 20 then (bitsOfReg rs1).getLsbD (k - 15)
    else if k < 25 then (bitsOfReg rs2).getLsbD (k - 20) else f7.getLsbD (k - 25) := by
  show BitVec.getLsbD (w := 7 + 5 + 5 + 3 + 5 + 7) (f7 ++ bitsOfReg rs2 ++ bitsOfReg rs1 ++ f3 ++ lo ++ op) k = _
  simp only [BitVec.getLsbD_append, Nat.sub_sub]
  split_ifs <;> first | rfl | omega

theorem getLsbD_packU (k : Nat) : (packU upper rd op).getLsbD k =
    if k < 7 then op.getLsbD k else if k < 12 then (bitsOfReg rd).getLsbD (k - 7)
    else upper.getLsbD (k - 12) := by
  show BitVec.getLsbD (w := 20 + 5 + 7) (upper ++ bitsOfReg rd ++ op) k = _
  simp only [BitVec.getLsbD_append, Nat.sub_sub]
  split_ifs <;> first | rfl | omega

@[simp] theorem opcodeOf_packR : opcodeOf (packR f7 rs2 rs1 f3 rd op) = op := by
  ext i hi
  simp only [opcodeOf, BitVec.getElem_extractLsb', getLsbD_packR]
  grind

@[simp] theorem rdOf_packR : rdOf (packR f7 rs2 rs1 f3 rd op) = rd := by
  rw [rdOf, ← regOfBits_bitsOfReg rd]
  congr 1
  ext i hi
  simp only [BitVec.getElem_extractLsb', getLsbD_packR, regOfBits_bitsOfReg]
  grind

@[simp] theorem funct3Of_packR : funct3Of (packR f7 rs2 rs1 f3 rd op) = f3 := by
  ext i hi
  simp only [funct3Of, BitVec.getElem_extractLsb', getLsbD_packR]
  grind

@[simp] theorem rs1Of_packR : rs1Of (packR f7 rs2 rs1 f3 rd op) = rs1 := by
  rw [rs1Of, ← regOfBits_bitsOfReg rs1]
  congr 1
  ext i hi
  simp only [BitVec.getElem_extractLsb', getLsbD_packR, regOfBits_bitsOfReg]
  grind

@[simp] theorem rs2Of_packR : rs2Of (packR f7 rs2 rs1 f3 rd op) = rs2 := by
  rw [rs2Of, ← regOfBits_bitsOfReg rs2]
  congr 1
  ext i hi
  simp only [BitVec.getElem_extractLsb', getLsbD_packR, regOfBits_bitsOfReg]
  grind

@[simp] theorem hi7Of_packR : hi7Of (packR f7 rs2 rs1 f3 rd op) = f7 := by
  ext i hi
  simp only [hi7Of, BitVec.getElem_extractLsb', getLsbD_packR]
  grind

@[simp] theorem opcodeOf_packI : opcodeOf (packI imm rs1 f3 rd op) = op := by
  ext i hi
  simp only [opcodeOf, BitVec.getElem_extractLsb', getLsbD_packI]
  grind

@[simp] theorem rdOf_packI : rdOf (packI imm rs1 f3 rd op) = rd := by
  rw [rdOf, ← regOfBits_bitsOfReg rd]
  congr 1
  ext i hi
  simp only [BitVec.getElem_extractLsb', getLsbD_packI, regOfBits_bitsOfReg]
  grind

@[simp] theorem funct3Of_packI : funct3Of (packI imm rs1 f3 rd op) = f3 := by
  ext i hi
  simp only [funct3Of, BitVec.getElem_extractLsb', getLsbD_packI]
  grind

@[simp] theorem rs1Of_packI : rs1Of (packI imm rs1 f3 rd op) = rs1 := by
  rw [rs1Of, ← regOfBits_bitsOfReg rs1]
  congr 1
  ext i hi
  simp only [BitVec.getElem_extractLsb', getLsbD_packI, regOfBits_bitsOfReg]
  grind

@[simp] theorem imm12Of_packI : imm12Of (packI imm rs1 f3 rd op) = imm := by
  ext i hi
  simp only [imm12Of, BitVec.getElem_extractLsb', getLsbD_packI]
  grind

@[simp] theorem opcodeOf_packS : opcodeOf (packS f7 rs2 rs1 f3 lo op) = op := by
  ext i hi
  simp only [opcodeOf, BitVec.getElem_extractLsb', getLsbD_packS]
  grind

@[simp] theorem lo5Of_packS : lo5Of (packS f7 rs2 rs1 f3 lo op) = lo := by
  ext i hi
  simp only [lo5Of, BitVec.getElem_extractLsb', getLsbD_packS]
  grind

@[simp] theorem funct3Of_packS : funct3Of (packS f7 rs2 rs1 f3 lo op) = f3 := by
  ext i hi
  simp only [funct3Of, BitVec.getElem_extractLsb', getLsbD_packS]
  grind

@[simp] theorem rs1Of_packS : rs1Of (packS f7 rs2 rs1 f3 lo op) = rs1 := by
  rw [rs1Of, ← regOfBits_bitsOfReg rs1]
  congr 1
  ext i hi
  simp only [BitVec.getElem_extractLsb', getLsbD_packS, regOfBits_bitsOfReg]
  grind

@[simp] theorem rs2Of_packS : rs2Of (packS f7 rs2 rs1 f3 lo op) = rs2 := by
  rw [rs2Of, ← regOfBits_bitsOfReg rs2]
  congr 1
  ext i hi
  simp only [BitVec.getElem_extractLsb', getLsbD_packS, regOfBits_bitsOfReg]
  grind

@[simp] theorem hi7Of_packS : hi7Of (packS f7 rs2 rs1 f3 lo op) = f7 := by
  ext i hi
  simp only [hi7Of, BitVec.getElem_extractLsb', getLsbD_packS]
  grind

@[simp] theorem opcodeOf_packU : opcodeOf (packU upper rd op) = op := by
  ext i hi
  simp only [opcodeOf, BitVec.getElem_extractLsb', getLsbD_packU]
  grind

@[simp] theorem rdOf_packU : rdOf (packU upper rd op) = rd := by
  rw [rdOf, ← regOfBits_bitsOfReg rd]
  congr 1
  ext i hi
  simp only [BitVec.getElem_extractLsb', getLsbD_packU, regOfBits_bitsOfReg]
  grind

@[simp] theorem imm20Of_packU : imm20Of (packU upper rd op) = upper := by
  ext i hi
  simp only [imm20Of, BitVec.getElem_extractLsb', getLsbD_packU]
  grind

end

/-! ### What a word decodes to, format by format -/

theorem decodeWord_of_record {w : Word} {f : Fields} (h : fieldsOf (opcodeOf w) w = some f) :
    decodeWord w = match select { word := w, opcode := opcodeOf w, fields := f } with
      | none => .unassigned w
      | some i => .instr i := by
  cases h' : select { word := w, opcode := opcodeOf w, fields := f } <;> simp [decodeWord, decodeRecord, h, h']

theorem decodeWord_aluReg (f7 : BitVec 7) (rs2 rs1 rd : Reg) (f3 : BitVec 3) (i : Instr)
    (h : selectAluReg f3 f7 rd rs1 rs2 = some i) : decodeWord (packR f7 rs2 rs1 f3 rd 0x33) = .instr i := by
  rw [decodeWord_of_record (f := .rType rd f3 rs1 rs2 f7) (by simp [fieldsOf])]
  simp [select, h]

theorem decodeWord_op2a (f7 : BitVec 7) (rs2 rs1 rd : Reg) (f3 : BitVec 3) :
    decodeWord (packR f7 rs2 rs1 f3 rd 0x2A) = .instr (.op2a rd f3 rs1 rs2 f7) := by
  rw [decodeWord_of_record (f := .rType rd f3 rs1 rs2 f7) (by simp [fieldsOf])]
  simp [select]

theorem decodeWord_aluImm (imm : BitVec 12) (rs1 rd : Reg) (f3 : BitVec 3) (i : Instr)
    (h : selectAluImm f3 imm rd rs1 = some i) : decodeWord (packI imm rs1 f3 rd 0x13) = .instr i := by
  rw [decodeWord_of_record (f := .iType rd f3 rs1 imm) (by simp [fieldsOf])]
  simp [select, h]

theorem decodeWord_load (imm : BitVec 12) (rs1 rd : Reg) (f3 : BitVec 3) (i : Instr)
    (h : selectLoad f3 imm rd rs1 = some i) : decodeWord (packI imm rs1 f3 rd 0x03) = .instr i := by
  rw [decodeWord_of_record (f := .iType rd f3 rs1 imm) (by simp [fieldsOf])]
  simp [select, h]

theorem decodeWord_system (imm : BitVec 12) (rs1 rd : Reg) (f3 : BitVec 3) :
    decodeWord (packI imm rs1 f3 rd 0x73) = .instr (.system rd f3 rs1 imm) := by
  rw [decodeWord_of_record (f := .iType rd f3 rs1 imm) (by simp [fieldsOf])]
  simp [select]

theorem decodeWord_store (hi : BitVec 7) (rs2 rs1 : Reg) (f3 : BitVec 3) (lo : BitVec 5) (i : Instr)
    (h : selectStore f3 (storeOffset hi lo) rs1 rs2 = some i) : decodeWord (packS hi rs2 rs1 f3 lo 0x23) = .instr i := by
  rw [decodeWord_of_record (f := .sType lo f3 rs1 rs2 hi) (by simp [fieldsOf])]
  simp [select, h]

theorem decodeWord_branch (hi : BitVec 7) (rs2 rs1 : Reg) (f3 : BitVec 3) (lo : BitVec 5) (i : Instr)
    (h : selectBranch f3 (branchOffset hi lo) rs1 rs2 = some i) :
    decodeWord (packS hi rs2 rs1 f3 lo 0x63) = .instr i := by
  rw [decodeWord_of_record (f := .sbType lo f3 rs1 rs2 hi) (by simp [fieldsOf])]
  simp [select, h]

theorem decodeWord_lui (imm : BitVec 20) (rd : Reg) : decodeWord (packU imm rd 0x37) = .instr (.lui rd imm) := by
  rw [decodeWord_of_record (f := .uType rd imm) (by simp [fieldsOf])]
  simp [select]

theorem decodeWord_jal (imm : BitVec 20) (rd : Reg) :
    decodeWord (packU imm rd 0x6F) = .instr (.jal rd (jumpOffset imm)) := by
  rw [decodeWord_of_record (f := .ujType rd imm) (by simp [fieldsOf])]
  simp [select]

/-- Four bytes in memory order and the word they make (20_memory.md R57). -/
@[simp] theorem wordOfBytes_bytesOfWord (w : Word) :
    wordOfBytes (byteOfWord w 0) (byteOfWord w 1) (byteOfWord w 2) (byteOfWord w 3) = w := by
  ext i hi
  show BitVec.getLsbD (w := 8 + 8 + 8 + 8) (byteOfWord w 3 ++ byteOfWord w 2 ++ byteOfWord w 1 ++ byteOfWord w 0) i = _
  simp only [BitVec.getLsbD_append, byteOfWord, BitVec.getLsbD_extractLsb']
  grind

/-- A record exists exactly for the recognised opcodes (30_encoding.md R88, R89). -/
theorem decodeRecord_isSome_iff (w : Word) : (decodeRecord w).isSome = true ↔ opcodeOf w ∈ recognisedOpcodes := by
  simp only [decodeRecord, Option.isSome_map, fieldsOf, recognisedOpcodes]
  split_ifs <;> simp_all

theorem decodeWord_illegal_iff (w : Word) : decodeWord w = .illegal w ↔ opcodeOf w ∉ recognisedOpcodes := by
  rw [← decodeRecord_isSome_iff]
  unfold decodeWord
  cases decodeRecord w with
  | none => simp
  | some r => cases h : select r <;> simp [h]

/-! ### Rows of the opcode table as equations on fields (30_encoding.md R100) -/

theorem and_ones7 (x : BitVec 7) : x &&& 127#7 = x := BitVec.and_allOnes

theorem and_ones3 (x : BitVec 3) : x &&& 7#3 = x := BitVec.and_allOnes

theorem and_mask_op (w : Word) : w &&& 0x0000007F#32 = (opcodeOf w).setWidth 32 := by
  apply BitVec.eq_of_getLsbD_eq
  intro k hk
  simp only [opcodeOf, BitVec.getLsbD_and, BitVec.getLsbD_setWidth, BitVec.getLsbD_extractLsb']
  interval_cases k <;> simp

theorem and_mask_op_funct3 (w : Word) :
    w &&& 0x0000707F#32 = (opcodeOf w).setWidth 32 ||| (funct3Of w).setWidth 32 <<< 12 := by
  apply BitVec.eq_of_getLsbD_eq
  intro k hk
  simp only [opcodeOf, funct3Of, BitVec.getLsbD_and, BitVec.getLsbD_or, BitVec.getLsbD_shiftLeft,
    BitVec.getLsbD_setWidth, BitVec.getLsbD_extractLsb']
  interval_cases k <;> simp

theorem and_mask_op_funct3_funct7 (w : Word) :
    w &&& 0xFE00707F#32 =
      (opcodeOf w).setWidth 32 ||| (funct3Of w).setWidth 32 <<< 12 ||| (hi7Of w).setWidth 32 <<< 25 := by
  apply BitVec.eq_of_getLsbD_eq
  intro k hk
  simp only [opcodeOf, funct3Of, hi7Of, BitVec.getLsbD_and, BitVec.getLsbD_or, BitVec.getLsbD_shiftLeft,
    BitVec.getLsbD_setWidth, BitVec.getLsbD_extractLsb']
  interval_cases k <;> simp

/-- A row that fixes the opcode. -/
theorem and_op_eq_iff {w p : Word} (hp : p &&& 0x0000007F#32 = p) :
    w &&& 0x0000007F#32 = p ↔ opcodeOf w = opcodeOf p := by
  constructor
  · rintro rfl
    rw [opcodeOf, opcodeOf, BitVec.extractLsb'_and]
    simp [and_ones7]
  · intro h
    rw [← hp, and_mask_op, and_mask_op, h]

/-- A row that fixes the opcode and funct3. -/
theorem and_op_funct3_eq_iff {w p : Word} (hp : p &&& 0x0000707F#32 = p) :
    w &&& 0x0000707F#32 = p ↔ opcodeOf w = opcodeOf p ∧ funct3Of w = funct3Of p := by
  constructor
  · rintro rfl
    simp only [opcodeOf, funct3Of, BitVec.extractLsb'_and]
    simp [and_ones7, and_ones3]
  · rintro ⟨h1, h2⟩
    rw [← hp, and_mask_op_funct3, and_mask_op_funct3, h1, h2]

/-- A row that fixes the opcode, funct3 and the top seven bits. -/
theorem and_op_funct3_funct7_eq_iff {w p : Word} (hp : p &&& 0xFE00707F#32 = p) :
    w &&& 0xFE00707F#32 = p ↔ opcodeOf w = opcodeOf p ∧ funct3Of w = funct3Of p ∧ hi7Of w = hi7Of p := by
  constructor
  · rintro rfl
    simp only [opcodeOf, funct3Of, hi7Of, BitVec.extractLsb'_and]
    simp [and_ones7, and_ones3]
  · rintro ⟨h1, h2, h3⟩
    rw [← hp, and_mask_op_funct3_funct7, and_mask_op_funct3_funct7, h1, h2, h3]

/-- funct7 of an I-type word is the top of its immediate. -/
@[simp] theorem hi7Of_packI (imm : BitVec 12) (rs1 rd : Reg) (f3 : BitVec 3) (op : BitVec 7) :
    hi7Of (packI imm rs1 f3 rd op) = imm.extractLsb' 5 7 := by
  ext i hi
  simp only [hi7Of, BitVec.getElem_extractLsb', getLsbD_packI]
  grind

/-- The top and the bottom of a shift immediate (30_encoding.md R100). -/
@[simp] theorem shiftImm_top (h : BitVec 7) (l : BitVec 5) : (h ++ l : BitVec 12).extractLsb' 5 7 = h := by
  ext i hi
  simp only [BitVec.getElem_extractLsb']
  rw [show BitVec.getLsbD (w := 7 + 5) (h ++ l) (5 + i) = _ from BitVec.getLsbD_append]
  simp [BitVec.getElem_eq_testBit_toNat, BitVec.getLsbD]

@[simp] theorem shiftImm_bottom (h : BitVec 7) (l : BitVec 5) : (h ++ l : BitVec 12).extractLsb' 0 5 = l := by
  ext i hi
  simp only [BitVec.getElem_extractLsb']
  rw [show BitVec.getLsbD (w := 7 + 5) (h ++ l) (0 + i) = _ from BitVec.getLsbD_append]
  simp [hi]

theorem shiftImm_eta (imm : BitVec 12) : (imm.extractLsb' 5 7 ++ imm.extractLsb' 0 5 : BitVec 12) = imm := by
  apply BitVec.eq_of_getLsbD_eq
  intro k hk
  rw [show BitVec.getLsbD (w := 7 + 5) (imm.extractLsb' 5 7 ++ imm.extractLsb' 0 5) k = _ from BitVec.getLsbD_append]
  simp only [BitVec.getLsbD_extractLsb']
  grind

/-! ### A word is its fields packed again -/

theorem packR_eta (w : Word) : packR (hi7Of w) (rs2Of w) (rs1Of w) (funct3Of w) (rdOf w) (opcodeOf w) = w := by
  apply BitVec.eq_of_getLsbD_eq
  intro k hk
  simp only [getLsbD_packR, hi7Of, rs2Of, rs1Of, funct3Of, rdOf, opcodeOf, bitsOfReg_regOfBits,
    BitVec.getLsbD_extractLsb']
  grind

theorem packI_eta (w : Word) : packI (imm12Of w) (rs1Of w) (funct3Of w) (rdOf w) (opcodeOf w) = w := by
  apply BitVec.eq_of_getLsbD_eq
  intro k hk
  simp only [getLsbD_packI, imm12Of, rs1Of, funct3Of, rdOf, opcodeOf, bitsOfReg_regOfBits,
    BitVec.getLsbD_extractLsb']
  grind

theorem packS_eta (w : Word) : packS (hi7Of w) (rs2Of w) (rs1Of w) (funct3Of w) (lo5Of w) (opcodeOf w) = w := by
  apply BitVec.eq_of_getLsbD_eq
  intro k hk
  simp only [getLsbD_packS, hi7Of, rs2Of, rs1Of, funct3Of, lo5Of, opcodeOf, bitsOfReg_regOfBits,
    BitVec.getLsbD_extractLsb']
  grind

theorem packU_eta (w : Word) : packU (imm20Of w) (rdOf w) (opcodeOf w) = w := by
  apply BitVec.eq_of_getLsbD_eq
  intro k hk
  simp only [getLsbD_packU, imm20Of, rdOf, opcodeOf, bitsOfReg_regOfBits, BitVec.getLsbD_extractLsb']
  grind

/-! ### What each sub-opcode dispatch selects encodes back to the fields it was given -/

theorem funct3_cases (f : BitVec 3) : f = 0 ∨ f = 1 ∨ f = 2 ∨ f = 3 ∨ f = 4 ∨ f = 5 ∨ f = 6 ∨ f = 7 := by
  revert f; decide

theorem encode_of_selectAluReg {f3 : BitVec 3} {f7 : BitVec 7} {rd rs1 rs2 : Reg} {i : Instr}
    (h : selectAluReg f3 f7 rd rs1 rs2 = some i) :
    i.wellFormed = true ∧ encode i = packR f7 rs2 rs1 f3 rd 0x33 := by
  unfold selectAluReg at h
  by_cases h7 : f7 = 0
  · subst h7
    rcases funct3_cases f3 with e | e | e | e | e | e | e | e <;> subst e <;> simp at h <;> subst h <;>
      exact ⟨rfl, rfl⟩
  · by_cases h7' : f7 = 0x20
    · subst h7'
      rcases funct3_cases f3 with e | e | e | e | e | e | e | e <;> subst e <;> simp at h <;> subst h <;>
        exact ⟨rfl, rfl⟩
    · rw [if_neg h7, if_neg h7'] at h; cases h

theorem encode_of_selectAluImm {f3 : BitVec 3} {imm : BitVec 12} {rd rs1 : Reg} {i : Instr}
    (h : selectAluImm f3 imm rd rs1 = some i) :
    i.wellFormed = true ∧ encode i = packI imm rs1 f3 rd 0x13 := by
  have he := shiftImm_eta imm
  unfold selectAluImm at h
  rcases funct3_cases f3 with e | e | e | e | e | e | e | e <;> subst e <;> simp at h
  case inr.inl => obtain ⟨h1, rfl⟩ := h; rw [h1] at he; exact ⟨rfl, by rw [encode, he]⟩
  case inr.inr.inr.inr.inr.inl =>
    split_ifs at h with h1 h2 <;> injection h with h <;> subst h
    · rw [h1] at he; exact ⟨rfl, by rw [encode, he]⟩
    · rw [h2] at he; exact ⟨rfl, by rw [encode, he]⟩
  all_goals (subst h; exact ⟨rfl, rfl⟩)

theorem encode_of_selectLoad {f3 : BitVec 3} {imm : BitVec 12} {rd rs1 : Reg} {i : Instr}
    (h : selectLoad f3 imm rd rs1 = some i) :
    i.wellFormed = true ∧ encode i = packI imm rs1 f3 rd 0x03 := by
  unfold selectLoad at h
  rcases funct3_cases f3 with e | e | e | e | e | e | e | e <;> subst e <;> simp at h <;> subst h <;> exact ⟨rfl, rfl⟩

theorem encode_of_selectStore {f3 : BitVec 3} {off : Word} {rs1 rs2 : Reg} {i : Instr}
    (h : selectStore f3 off rs1 rs2 = some i) :
    i.wellFormed = storeOffsetOk off ∧ encode i = packS (storeHi off) rs2 rs1 f3 (storeLo off) 0x23 := by
  unfold selectStore at h
  rcases funct3_cases f3 with e | e | e | e | e | e | e | e <;> subst e <;> simp at h <;> subst h <;> exact ⟨rfl, rfl⟩

theorem encode_of_selectBranch {f3 : BitVec 3} {off : Word} {rs1 rs2 : Reg} {i : Instr}
    (h : selectBranch f3 off rs1 rs2 = some i) :
    i.wellFormed = branchOffsetOk off ∧ encode i = packS (branchHi off) rs2 rs1 f3 (branchLo off) 0x63 := by
  unfold selectBranch at h
  rcases funct3_cases f3 with e | e | e | e | e | e | e | e <;> subst e <;> simp at h <;> subst h <;> exact ⟨rfl, rfl⟩

/-- A word that decodes to an instruction, format by format. -/
theorem decodeWord_instr_cases {w : Word} {i : Instr} (h : decodeWord w = .instr i) :
    (opcodeOf w = 0x33 ∧ selectAluReg (funct3Of w) (hi7Of w) (rdOf w) (rs1Of w) (rs2Of w) = some i) ∨
    (opcodeOf w = 0x2A ∧ i = .op2a (rdOf w) (funct3Of w) (rs1Of w) (rs2Of w) (hi7Of w)) ∨
    (opcodeOf w = 0x03 ∧ selectLoad (funct3Of w) (imm12Of w) (rdOf w) (rs1Of w) = some i) ∨
    (opcodeOf w = 0x13 ∧ selectAluImm (funct3Of w) (imm12Of w) (rdOf w) (rs1Of w) = some i) ∨
    (opcodeOf w = 0x73 ∧ i = .system (rdOf w) (funct3Of w) (rs1Of w) (imm12Of w)) ∨
    (opcodeOf w = 0x23 ∧ selectStore (funct3Of w) (storeOffset (hi7Of w) (lo5Of w)) (rs1Of w) (rs2Of w) = some i) ∨
    (opcodeOf w = 0x63 ∧ selectBranch (funct3Of w) (branchOffset (hi7Of w) (lo5Of w)) (rs1Of w) (rs2Of w) = some i) ∨
    (opcodeOf w = 0x37 ∧ i = .lui (rdOf w) (imm20Of w)) ∨
    (opcodeOf w = 0x6F ∧ i = .jal (rdOf w) (jumpOffset (imm20Of w))) := by
  unfold decodeWord at h
  cases hr : decodeRecord w with
  | none => simp [hr] at h
  | some r =>
    cases hs : select r with
    | none => simp [hr, hs] at h
    | some j =>
      simp only [hr, hs] at h
      injection h with h
      subst h
      simp only [decodeRecord, Option.map_eq_some_iff] at hr
      obtain ⟨f, hf, rfl⟩ := hr
      unfold fieldsOf at hf
      split_ifs at hf with h1 h2 h3 h4 h5 h6 h7 h8 h9 <;> injection hf with hf <;> subst hf
      all_goals simp_all [select]
/-! ### From the fields of a word to its instruction -/

theorem decodeWord_of_select {w : Word} {f : Fields} {i : Instr} (hf : fieldsOf (opcodeOf w) w = some f)
    (hs : select { word := w, opcode := opcodeOf w, fields := f } = some i) : decodeWord w = .instr i := by
  rw [decodeWord_of_record hf]
  simp only [hs]

theorem decodeWord_of_aluReg {w : Word} {i : Instr} (h : opcodeOf w = 0x33)
    (hs : selectAluReg (funct3Of w) (hi7Of w) (rdOf w) (rs1Of w) (rs2Of w) = some i) : decodeWord w = .instr i := by
  refine decodeWord_of_select (f := .rType (rdOf w) (funct3Of w) (rs1Of w) (rs2Of w) (hi7Of w)) ?_ ?_ <;> rw [h]
  · rfl
  · exact hs

theorem decodeWord_of_aluImm {w : Word} {i : Instr} (h : opcodeOf w = 0x13)
    (hs : selectAluImm (funct3Of w) (imm12Of w) (rdOf w) (rs1Of w) = some i) : decodeWord w = .instr i := by
  refine decodeWord_of_select (f := .iType (rdOf w) (funct3Of w) (rs1Of w) (imm12Of w)) ?_ ?_ <;> rw [h]
  · rfl
  · exact hs

theorem decodeWord_of_load {w : Word} {i : Instr} (h : opcodeOf w = 0x03)
    (hs : selectLoad (funct3Of w) (imm12Of w) (rdOf w) (rs1Of w) = some i) : decodeWord w = .instr i := by
  refine decodeWord_of_select (f := .iType (rdOf w) (funct3Of w) (rs1Of w) (imm12Of w)) ?_ ?_ <;> rw [h]
  · rfl
  · exact hs

theorem decodeWord_of_system {w : Word} (h : opcodeOf w = 0x73) :
    decodeWord w = .instr (.system (rdOf w) (funct3Of w) (rs1Of w) (imm12Of w)) := by
  refine decodeWord_of_select (f := .iType (rdOf w) (funct3Of w) (rs1Of w) (imm12Of w)) ?_ ?_ <;> rw [h] <;> rfl

theorem decodeWord_of_op2a {w : Word} (h : opcodeOf w = 0x2A) :
    decodeWord w = .instr (.op2a (rdOf w) (funct3Of w) (rs1Of w) (rs2Of w) (hi7Of w)) := by
  refine decodeWord_of_select (f := .rType (rdOf w) (funct3Of w) (rs1Of w) (rs2Of w) (hi7Of w)) ?_ ?_ <;> rw [h] <;>
    rfl

theorem decodeWord_of_store {w : Word} {i : Instr} (h : opcodeOf w = 0x23)
    (hs : selectStore (funct3Of w) (storeOffset (hi7Of w) (lo5Of w)) (rs1Of w) (rs2Of w) = some i) :
    decodeWord w = .instr i := by
  refine decodeWord_of_select (f := .sType (lo5Of w) (funct3Of w) (rs1Of w) (rs2Of w) (hi7Of w)) ?_ ?_
  · rw [h]; rfl
  · exact hs

theorem decodeWord_of_branch {w : Word} {i : Instr} (h : opcodeOf w = 0x63)
    (hs : selectBranch (funct3Of w) (branchOffset (hi7Of w) (lo5Of w)) (rs1Of w) (rs2Of w) = some i) :
    decodeWord w = .instr i := by
  refine decodeWord_of_select (f := .sbType (lo5Of w) (funct3Of w) (rs1Of w) (rs2Of w) (hi7Of w)) ?_ ?_
  · rw [h]; rfl
  · exact hs

theorem decodeWord_of_lui {w : Word} (h : opcodeOf w = 0x37) : decodeWord w = .instr (.lui (rdOf w) (imm20Of w)) := by
  refine decodeWord_of_select (f := .uType (rdOf w) (imm20Of w)) ?_ rfl
  rw [h]; rfl

theorem decodeWord_of_jal {w : Word} (h : opcodeOf w = 0x6F) :
    decodeWord w = .instr (.jal (rdOf w) (jumpOffset (imm20Of w))) := by
  refine decodeWord_of_select (f := .ujType (rdOf w) (imm20Of w)) ?_ rfl
  rw [h]; rfl

/-- The two halves of the I immediate of a shift, as fields of the word. -/
theorem imm12Of_top (w : Word) : (imm12Of w).extractLsb' 5 7 = hi7Of w := by
  rw [imm12Of, hi7Of]
  ext i hi
  simp only [BitVec.getElem_extractLsb', BitVec.getLsbD_extractLsb']
  grind

theorem imm12Of_bottom (w : Word) : (imm12Of w).extractLsb' 0 5 = w.extractLsb' 20 5 := by
  rw [imm12Of]
  ext i hi
  simp only [BitVec.getElem_extractLsb', BitVec.getLsbD_extractLsb']
  grind

end Sys2Proof
end

