-- ==== Sys2Proof/Laws/Memory.lean ====
section
/-! SUPPORT. What the memory operations do: reads after writes, the canonical form, little-endian groups. -/

namespace Sys2Proof.Machine.Memory

/-- The canonical form as a proposition. -/
theorem wf_iff (m : Memory) :
    m.wf = true ↔ m.Pairwise (fun c d => c.1 < d.1) ∧ ∀ c ∈ m, c.2 ≠ blankByte := by
  simp [wf]

theorem within_iff (n : Nat) (m : Memory) : m.within n = true ↔ ∀ c ∈ m, c.1 < n := by
  simp [within]

@[simp] theorem wf_nil : Memory.wf [] = true := rfl

@[simp] theorem within_nil (n : Nat) : Memory.within n [] = true := rfl

@[simp] theorem read_nil (a : Nat) : Memory.read [] a = blankByte := rfl

/-- An address below every listed one reads as never written. -/
theorem read_of_lt (m : Memory) (a : Nat) (h : ∀ c ∈ m, a < c.1) : m.read a = blankByte := by
  induction m with
  | nil => rfl
  | cons c rest ih =>
    have hne : c.1 ≠ a := by have := h c (by simp); omega
    simp [read, hne, ih fun d hd => h d (by simp [hd])]

/-- A write leaves every other address as it was, in any list. -/
theorem read_write_of_ne (m : Memory) (a x : Nat) (b : Byte) (hx : x ≠ a) : (m.write a b).read x = m.read x := by
  induction m with
  | nil => simp only [write]; split <;> simp [read, Ne.symm hx]
  | cons c rest ih =>
    obtain ⟨k, v⟩ := c
    simp only [write]
    split
    · split <;> simp [read, Ne.symm hx]
    · split
      · rename_i hk
        subst hk
        split <;> simp [read, Ne.symm hx]
      · simp [read, ih]

/-- A canonical memory reads back what was written. -/
theorem read_write_self (m : Memory) (a : Nat) (b : Byte) (h : m.wf = true) : (m.write a b).read a = b := by
  induction m with
  | nil => simp only [write]; split <;> simp_all [read]
  | cons c rest ih =>
    obtain ⟨k, v⟩ := c
    obtain ⟨hp, hb⟩ := (wf_iff _).1 h
    obtain ⟨hk, hp'⟩ := List.pairwise_cons.1 hp
    have hrest : Memory.wf rest = true := (wf_iff _).2 ⟨hp', fun d hd => hb d (by simp [hd])⟩
    simp only [write]
    split
    · rename_i hlt
      split
      · rename_i he
        rw [he]
        refine read_of_lt _ _ fun d hd => ?_
        rcases List.mem_cons.1 hd with rfl | hd
        · exact hlt
        · exact lt_trans hlt (hk d hd)
      · simp [read]
    · split
      · rename_i hnlt heq
        subst heq
        split
        · rename_i he
          rw [he]
          exact read_of_lt _ _ hk
        · simp [read]
      · rename_i hnlt hne
        simp [read, Ne.symm hne, ih hrest]

theorem mem_write (m : Memory) (a : Nat) (b : Byte) (c : Host.Cell) (h : c ∈ m.write a b) :
    c ∈ m ∨ (c = (a, b) ∧ b ≠ blankByte) := by
  induction m with
  | nil => simp only [write] at h; split at h <;> simp_all
  | cons d rest ih =>
    obtain ⟨k, v⟩ := d
    simp only [write] at h
    split at h
    · split at h <;> simp_all; tauto
    · split at h
      · split at h <;> simp_all; tauto
      · rcases List.mem_cons.1 h with rfl | h
        · simp
        · rcases ih h with h | h <;> simp [h]

/-- A write keeps the canonical form. -/
theorem write_wf (m : Memory) (a : Nat) (b : Byte) (h : m.wf = true) : (m.write a b).wf = true := by
  induction m with
  | nil => simp only [write]; split <;> simp_all [wf]
  | cons c rest ih =>
    obtain ⟨k, v⟩ := c
    obtain ⟨hp, hb⟩ := (wf_iff _).1 h
    obtain ⟨hk, hp'⟩ := List.pairwise_cons.1 hp
    have hrest : Memory.wf rest = true := (wf_iff _).2 ⟨hp', fun d hd => hb d (by simp [hd])⟩
    have hv : v ≠ blankByte := hb (k, v) (by simp)
    simp only [write]
    split
    · rename_i hlt
      split
      · exact h
      · rename_i hne
        refine (wf_iff _).2 ⟨List.pairwise_cons.2 ⟨fun d hd => ?_, hp⟩, fun d hd => ?_⟩
        · rcases List.mem_cons.1 hd with rfl | hd
          · exact hlt
          · exact lt_trans hlt (hk d hd)
        · rcases List.mem_cons.1 hd with rfl | hd
          · exact hne
          · exact hb d hd
    · split
      · rename_i heq
        subst heq
        split
        · exact hrest
        · rename_i hne
          refine (wf_iff _).2 ⟨List.pairwise_cons.2 ⟨hk, hp'⟩, fun d hd => ?_⟩
          rcases List.mem_cons.1 hd with rfl | hd
          · exact hne
          · exact hb d (by simp [hd])
      · rename_i hnlt hne
        obtain ⟨ip, ib⟩ := (wf_iff _).1 (ih hrest)
        refine (wf_iff _).2 ⟨List.pairwise_cons.2 ⟨fun d hd => ?_, ip⟩, fun d hd => ?_⟩
        · rcases mem_write _ _ _ _ hd with hd | ⟨rfl, -⟩
          · exact hk d hd
          · show k < a; omega
        · rcases List.mem_cons.1 hd with rfl | hd
          · exact hv
          · exact ib d hd

/-- A write inside the arena keeps the memory inside it. -/
theorem write_within (n : Nat) (m : Memory) (a : Nat) (b : Byte) (h : m.within n = true) (ha : a < n) :
    (m.write a b).within n = true := by
  refine (within_iff _ _).2 fun c hc => ?_
  rcases mem_write _ _ _ _ hc with hc | ⟨rfl, -⟩
  · exact (within_iff _ _).1 h c hc
  · exact ha

/-- Cells written one after the other keep the canonical form. -/
theorem writeCells_wf (m : Memory) (cells : List Host.Cell) (h : m.wf = true) : (m.writeCells cells).wf = true := by
  induction cells generalizing m with
  | nil => exact h
  | cons c cells ih => exact ih _ (write_wf _ _ _ h)

theorem writeCells_within (n : Nat) (m : Memory) (cells : List Host.Cell) (h : m.within n = true)
    (hc : ∀ c ∈ cells, c.1 < n) : (m.writeCells cells).within n = true := by
  induction cells generalizing m with
  | nil => exact h
  | cons c cells ih => exact ih _ (write_within _ _ _ _ h (hc c (by simp))) fun d hd => hc d (by simp [hd])

/-! ### Little-endian groups of bytes -/

theorem writeLE_wf (m : Memory) (a n : Nat) (v : Word) (h : m.wf = true) : (m.writeLE a n v).wf = true := by
  induction n generalizing m a v with
  | zero => exact h
  | succ n ih => exact ih _ _ _ (write_wf _ _ _ h)

theorem writeLE_within (k : Nat) (m : Memory) (a n : Nat) (v : Word) (h : m.within k = true) (ha : a + n ≤ k) :
    (m.writeLE a n v).within k = true := by
  induction n generalizing m a v with
  | zero => exact h
  | succ n ih => exact ih _ _ _ (write_within _ _ _ _ h (by omega)) (by omega)

/-- Bytes outside the group read as before, in any list. -/
theorem read_writeLE_of_out (m : Memory) (a n x : Nat) (v : Word) (hx : x < a ∨ a + n ≤ x) :
    (m.writeLE a n v).read x = m.read x := by
  induction n generalizing m a v with
  | zero => rfl
  | succ n ih =>
    rw [writeLE, ih _ _ _ (by omega), read_write_of_ne _ _ _ _ (by omega)]

/-- Byte k of the group reads as byte k of the value (20_memory.md R55). -/
theorem read_writeLE_in (m : Memory) (a n k : Nat) (v : Word) (h : m.wf = true) (hk : k < n) :
    (m.writeLE a n v).read (a + k) = v.extractLsb' (8 * k) 8 := by
  induction n generalizing m a v k with
  | zero => omega
  | succ n ih =>
    rw [writeLE]
    cases k with
    | zero =>
      rw [read_writeLE_of_out _ _ _ _ _ (by omega), Nat.add_zero, read_write_self _ _ _ h]
      ext i hi; simp
    | succ k =>
      have := ih (m := m.write a (v.setWidth 8)) (a := a + 1) (v := v >>> 8) (k := k) (write_wf _ _ _ h) (by omega)
      rw [show a + (k + 1) = a + 1 + k by omega, this]
      ext i hi
      simp
      congr 1; omega

/-- Bit i of a group of bytes read: the bit of the byte it lies in (20_memory.md R54). -/
theorem getLsbD_readLE (m : Memory) (a n i : Nat) (hi : i < 32) :
    (m.readLE a n).getLsbD i = (decide (i < 8 * n) && (m.read (a + i / 8)).getLsbD (i % 8)) := by
  induction n generalizing a i with
  | zero => simp [readLE]
  | succ n ih =>
    rw [readLE]
    by_cases h : i < 8
    · simp [h, hi, Nat.mod_eq_of_lt h, Nat.div_eq_of_lt h]; omega
    · have hb : (m.read a).getLsbD i = false := BitVec.getLsbD_of_ge _ _ (by omega)
      have hr := ih (a + 1) (i - 8) (by omega)
      rw [show a + 1 + (i - 8) / 8 = a + i / 8 by omega, show (i - 8) % 8 = i % 8 by omega,
        show decide (i - 8 < 8 * n) = decide (i < 8 * (n + 1)) by simp; omega] at hr
      simp only [BitVec.getLsbD_or, BitVec.getLsbD_shiftLeft, BitVec.getLsbD_setWidth, hb, hr, h, hi]
      simp

end Sys2Proof.Machine.Memory
end

