-- ==== Sys2Proof/Laws/State.lean ====
section
/-! SUPPORT. One lemma per field per update of State, so that no proof unfolds a record update. -/

namespace Sys2Proof.Machine.State

/-! ### setPc -/

@[simp] theorem setPc_config (s : State) (t : Word) : (s.setPc t).config = s.config := rfl
@[simp] theorem setPc_regs (s : State) (t : Word) : (s.setPc t).regs = s.regs := rfl
@[simp] theorem setPc_pc (s : State) (t : Word) : (s.setPc t).pc = t := rfl
@[simp] theorem setPc_mem (s : State) (t : Word) : (s.setPc t).mem = s.mem := rfl
@[simp] theorem setPc_status (s : State) (t : Word) : (s.setPc t).status = s.status := rfl
@[simp] theorem setPc_cause (s : State) (t : Word) : (s.setPc t).cause = s.cause := rfl
@[simp] theorem setPc_diag (s : State) (t : Word) : (s.setPc t).diag = s.diag := rfl
@[simp] theorem setPc_budgetLeft (s : State) (t : Word) : (s.setPc t).budgetLeft = s.budgetLeft := rfl
@[simp] theorem setPc_phase (s : State) (t : Word) : (s.setPc t).phase = s.phase := rfl
@[simp] theorem setPc_ir (s : State) (t : Word) : (s.setPc t).ir = s.ir := rfl
@[simp] theorem setPc_host (s : State) (t : Word) : (s.setPc t).host = s.host := rfl
@[simp] theorem setPc_freeCount (s : State) (t : Word) : (s.setPc t).freeCount = s.freeCount := rfl
@[simp] theorem setPc_byteAt (s : State) (t : Word) (x : Nat) : (s.setPc t).byteAt x = s.byteAt x := rfl
@[simp] theorem setPc_reg (s : State) (t : Word) (r : Reg) : (s.setPc t).reg r = s.reg r := rfl

/-! ### advance -/

@[simp] theorem advance_config (s : State) : s.advance.config = s.config := rfl
@[simp] theorem advance_regs (s : State) : s.advance.regs = s.regs := rfl
@[simp] theorem advance_pc (s : State) : s.advance.pc = s.pc + 4 := rfl
@[simp] theorem advance_mem (s : State) : s.advance.mem = s.mem := rfl
@[simp] theorem advance_status (s : State) : s.advance.status = s.status := rfl
@[simp] theorem advance_cause (s : State) : s.advance.cause = s.cause := rfl
@[simp] theorem advance_diag (s : State) : s.advance.diag = s.diag := rfl
@[simp] theorem advance_budgetLeft (s : State) : s.advance.budgetLeft = s.budgetLeft := rfl
@[simp] theorem advance_phase (s : State) : s.advance.phase = s.phase := rfl
@[simp] theorem advance_ir (s : State) : s.advance.ir = s.ir := rfl
@[simp] theorem advance_host (s : State) : s.advance.host = s.host := rfl
@[simp] theorem advance_freeCount (s : State) : s.advance.freeCount = s.freeCount := rfl
@[simp] theorem advance_byteAt (s : State) (x : Nat) : s.advance.byteAt x = s.byteAt x := rfl
@[simp] theorem advance_reg (s : State) (r : Reg) : s.advance.reg r = s.reg r := rfl

/-! ### setReg -/

@[simp] theorem setReg_config (s : State) (r : Reg) (v : Word) : (s.setReg r v).config = s.config := by
  unfold setReg; split <;> rfl
@[simp] theorem setReg_pc (s : State) (r : Reg) (v : Word) : (s.setReg r v).pc = s.pc := by
  unfold setReg; split <;> rfl
@[simp] theorem setReg_mem (s : State) (r : Reg) (v : Word) : (s.setReg r v).mem = s.mem := by
  unfold setReg; split <;> rfl
@[simp] theorem setReg_status (s : State) (r : Reg) (v : Word) : (s.setReg r v).status = s.status := by
  unfold setReg; split <;> rfl
@[simp] theorem setReg_cause (s : State) (r : Reg) (v : Word) : (s.setReg r v).cause = s.cause := by
  unfold setReg; split <;> rfl
@[simp] theorem setReg_diag (s : State) (r : Reg) (v : Word) : (s.setReg r v).diag = s.diag := by
  unfold setReg; split <;> rfl
@[simp] theorem setReg_budgetLeft (s : State) (r : Reg) (v : Word) : (s.setReg r v).budgetLeft = s.budgetLeft := by
  unfold setReg; split <;> rfl
@[simp] theorem setReg_phase (s : State) (r : Reg) (v : Word) : (s.setReg r v).phase = s.phase := by
  unfold setReg; split <;> rfl
@[simp] theorem setReg_ir (s : State) (r : Reg) (v : Word) : (s.setReg r v).ir = s.ir := by
  unfold setReg; split <;> rfl
@[simp] theorem setReg_host (s : State) (r : Reg) (v : Word) : (s.setReg r v).host = s.host := by
  unfold setReg; split <;> rfl
@[simp] theorem setReg_freeCount (s : State) (r : Reg) (v : Word) : (s.setReg r v).freeCount = s.freeCount := by
  unfold setReg; split <;> rfl
@[simp] theorem setReg_byteAt (s : State) (r : Reg) (v : Word) (x : Nat) :
    (s.setReg r v).byteAt x = s.byteAt x := by
  simp [byteAt]

/-! ### enforceZero -/

@[simp] theorem enforceZero_config (s : State) : s.enforceZero.config = s.config := rfl
@[simp] theorem enforceZero_regs (s : State) : s.enforceZero.regs = s.regs.set 0 0 := rfl
@[simp] theorem enforceZero_pc (s : State) : s.enforceZero.pc = s.pc := rfl
@[simp] theorem enforceZero_mem (s : State) : s.enforceZero.mem = s.mem := rfl
@[simp] theorem enforceZero_status (s : State) : s.enforceZero.status = s.status := rfl
@[simp] theorem enforceZero_cause (s : State) : s.enforceZero.cause = s.cause := rfl
@[simp] theorem enforceZero_diag (s : State) : s.enforceZero.diag = s.diag := rfl
@[simp] theorem enforceZero_budgetLeft (s : State) : s.enforceZero.budgetLeft = s.budgetLeft := rfl
@[simp] theorem enforceZero_phase (s : State) : s.enforceZero.phase = s.phase := rfl
@[simp] theorem enforceZero_ir (s : State) : s.enforceZero.ir = s.ir := rfl
@[simp] theorem enforceZero_host (s : State) : s.enforceZero.host = s.host := rfl
@[simp] theorem enforceZero_freeCount (s : State) : s.enforceZero.freeCount = s.freeCount := rfl
@[simp] theorem enforceZero_byteAt (s : State) (x : Nat) : s.enforceZero.byteAt x = s.byteAt x := rfl

/-! ### hostTaken -/

@[simp] theorem hostTaken_config (s : State) : s.hostTaken.config = s.config := rfl
@[simp] theorem hostTaken_regs (s : State) : s.hostTaken.regs = s.regs := rfl
@[simp] theorem hostTaken_pc (s : State) : s.hostTaken.pc = s.pc := rfl
@[simp] theorem hostTaken_mem (s : State) : s.hostTaken.mem = s.mem := rfl
@[simp] theorem hostTaken_status (s : State) : s.hostTaken.status = s.status := rfl
@[simp] theorem hostTaken_cause (s : State) : s.hostTaken.cause = s.cause := rfl
@[simp] theorem hostTaken_diag (s : State) : s.hostTaken.diag = s.diag := rfl
@[simp] theorem hostTaken_budgetLeft (s : State) : s.hostTaken.budgetLeft = s.budgetLeft := rfl
@[simp] theorem hostTaken_phase (s : State) : s.hostTaken.phase = s.phase := rfl
@[simp] theorem hostTaken_ir (s : State) : s.hostTaken.ir = s.ir := rfl
@[simp] theorem hostTaken_host (s : State) : s.hostTaken.host = s.host.tail := rfl
@[simp] theorem hostTaken_freeCount (s : State) : s.hostTaken.freeCount = s.freeCount := rfl
@[simp] theorem hostTaken_byteAt (s : State) (x : Nat) : s.hostTaken.byteAt x = s.byteAt x := rfl
@[simp] theorem hostTaken_reg (s : State) (r : Reg) : s.hostTaken.reg r = s.reg r := rfl

/-! ### retire -/

@[simp] theorem retire_config (s : State) : s.retire.config = s.config := rfl
@[simp] theorem retire_regs (s : State) : s.retire.regs = s.regs.set 0 0 := rfl
@[simp] theorem retire_pc (s : State) : s.retire.pc = s.pc := rfl
@[simp] theorem retire_mem (s : State) : s.retire.mem = s.mem := rfl
@[simp] theorem retire_status (s : State) : s.retire.status = s.status := rfl
@[simp] theorem retire_cause (s : State) : s.retire.cause = s.cause := rfl
@[simp] theorem retire_diag (s : State) : s.retire.diag = s.diag := rfl
@[simp] theorem retire_budgetLeft (s : State) : s.retire.budgetLeft = s.budgetLeft.countDown := rfl
@[simp] theorem retire_phase (s : State) : s.retire.phase = .fetch := rfl
@[simp] theorem retire_ir (s : State) : s.retire.ir = s.ir := rfl
@[simp] theorem retire_host (s : State) : s.retire.host = s.host := rfl
@[simp] theorem retire_freeCount (s : State) : s.retire.freeCount = s.freeCount := rfl
@[simp] theorem retire_byteAt (s : State) (x : Nat) : s.retire.byteAt x = s.byteAt x := rfl

/-! ### takeFault -/

@[simp] theorem takeFault_config (s : State) (f : Fault) : (s.takeFault f).config = s.config := rfl
@[simp] theorem takeFault_regs (s : State) (f : Fault) : (s.takeFault f).regs = s.regs := rfl
@[simp] theorem takeFault_pc (s : State) (f : Fault) : (s.takeFault f).pc = s.pc := rfl
@[simp] theorem takeFault_mem (s : State) (f : Fault) : (s.takeFault f).mem = s.mem := rfl
@[simp] theorem takeFault_status (s : State) (f : Fault) : (s.takeFault f).status = .halted := rfl
@[simp] theorem takeFault_cause (s : State) (f : Fault) : (s.takeFault f).cause = f.cause := rfl
@[simp] theorem takeFault_diag (s : State) (f : Fault) : (s.takeFault f).diag = f.diag := rfl
@[simp] theorem takeFault_budgetLeft (s : State) (f : Fault) : (s.takeFault f).budgetLeft = s.budgetLeft := rfl
@[simp] theorem takeFault_phase (s : State) (f : Fault) : (s.takeFault f).phase = .fetch := rfl
@[simp] theorem takeFault_ir (s : State) (f : Fault) : (s.takeFault f).ir = s.ir := rfl
@[simp] theorem takeFault_host (s : State) (f : Fault) : (s.takeFault f).host = s.host := rfl
@[simp] theorem takeFault_freeCount (s : State) (f : Fault) : (s.takeFault f).freeCount = s.freeCount := rfl
@[simp] theorem takeFault_byteAt (s : State) (f : Fault) (x : Nat) : (s.takeFault f).byteAt x = s.byteAt x := rfl
@[simp] theorem takeFault_reg (s : State) (f : Fault) (r : Reg) : (s.takeFault f).reg r = s.reg r := rfl

/-! ### haltWith -/

@[simp] theorem haltWith_config (s : State) (c : Cause) : (s.haltWith c).config = s.config := rfl
@[simp] theorem haltWith_regs (s : State) (c : Cause) : (s.haltWith c).regs = s.regs := rfl
@[simp] theorem haltWith_pc (s : State) (c : Cause) : (s.haltWith c).pc = s.pc := rfl
@[simp] theorem haltWith_mem (s : State) (c : Cause) : (s.haltWith c).mem = s.mem := rfl
@[simp] theorem haltWith_status (s : State) (c : Cause) : (s.haltWith c).status = .halted := rfl
@[simp] theorem haltWith_cause (s : State) (c : Cause) : (s.haltWith c).cause = c := rfl
@[simp] theorem haltWith_diag (s : State) (c : Cause) : (s.haltWith c).diag = Config.freeDiag s.freeCount := rfl
@[simp] theorem haltWith_budgetLeft (s : State) (c : Cause) : (s.haltWith c).budgetLeft = s.budgetLeft := rfl
@[simp] theorem haltWith_phase (s : State) (c : Cause) : (s.haltWith c).phase = .fetch := rfl
@[simp] theorem haltWith_ir (s : State) (c : Cause) : (s.haltWith c).ir = s.ir := rfl
@[simp] theorem haltWith_host (s : State) (c : Cause) : (s.haltWith c).host = s.host := rfl
@[simp] theorem haltWith_freeCount (s : State) (c : Cause) : (s.haltWith c).freeCount = s.freeCount + 1 := rfl
@[simp] theorem haltWith_byteAt (s : State) (c : Cause) (x : Nat) : (s.haltWith c).byteAt x = s.byteAt x := rfl
@[simp] theorem haltWith_reg (s : State) (c : Cause) (r : Reg) : (s.haltWith c).reg r = s.reg r := rfl

/-! ### The register file -/

/-- x0 reads 0 in every state (10_state.md R23). -/
@[simp] theorem reg_zero (s : State) : s.reg 0 = 0 := rfl

/-- A write to x0 is discarded (10_state.md R23). -/
@[simp] theorem setReg_zero (s : State) (v : Word) : s.setReg 0 v = s := rfl

/-- The register written reads the value, x0 reads 0, and every other register reads as before. -/
theorem reg_setReg (s : State) (rd r : Reg) (v : Word) :
    (s.setReg rd v).reg r = if r = rd ∧ rd ≠ 0 then v else s.reg r := by
  by_cases hd : rd = 0
  · simp [hd]
  · by_cases hr : r = rd
    · subst hr; simp [reg, setReg, hd]
    · have : rd.val ≠ r.val := fun h => hr (Fin.ext h.symm)
      simp [reg, setReg, hd, hr, this]

/-- Zeroing the stored x0 changes no register's reading. -/
@[simp] theorem enforceZero_reg (s : State) (r : Reg) : s.enforceZero.reg r = s.reg r := by
  by_cases h : r = 0
  · simp [h]
  · have : (0 : Nat) ≠ r.val := fun e => h (Fin.ext e.symm)
    simp [reg, h, this]

@[simp] theorem retire_reg (s : State) (r : Reg) : s.retire.reg r = s.reg r := enforceZero_reg s r

@[simp] theorem enforceZero_regs_zero (s : State) : s.enforceZero.regs[0] = 0 := by simp

@[simp] theorem retire_regs_zero (s : State) : s.retire.regs[0] = 0 := by simp

end Sys2Proof.Machine.State
end

