-- ==== Sys2Proof/Laws/Ops.lean ====
section
/-! SUPPORT. What the shared operations of the meanings answer, and everything an instruction can do: how it can
complete, raise or be refused. Provers cite these in place of unfolding `exec`. -/

namespace Sys2Proof.Machine

/-! ### The arbiter (20_memory.md R51 to R55) -/

theorem State.memRead_of_valid (s : State) (addr : Word) (n : Width) (h : addr.toNat + n.bytes ≤ s.config.memSize) :
    s.memRead addr n = .ok (s.mem.readLE addr.toNat n.bytes) := by
  simp [memRead, validAccess, h]

theorem State.memRead_of_invalid (s : State) (addr : Word) (n : Width)
    (h : s.config.memSize < addr.toNat + n.bytes) : s.memRead addr n = .error (.memoryAccessError addr) := by
  simp [memRead, validAccess, h]

/-- Everything a read can answer. -/
theorem State.memRead_cases (s : State) (addr : Word) (n : Width) :
    (addr.toNat + n.bytes ≤ s.config.memSize ∧ s.memRead addr n = .ok (s.mem.readLE addr.toNat n.bytes)) ∨
    (s.config.memSize < addr.toNat + n.bytes ∧ s.memRead addr n = .error (.memoryAccessError addr)) := by
  rcases Nat.lt_or_ge s.config.memSize (addr.toNat + n.bytes) with h | h
  · exact .inr ⟨h, s.memRead_of_invalid _ _ h⟩
  · exact .inl ⟨h, s.memRead_of_valid _ _ h⟩

theorem State.memWrite_of_valid (s : State) (addr : Word) (n : Width) (v : Word)
    (h : addr.toNat + n.bytes ≤ s.config.memSize) :
    s.memWrite addr n v = .ok { s with mem := s.mem.writeLE addr.toNat n.bytes v } := by
  simp [memWrite, validAccess, h]

theorem State.memWrite_of_invalid (s : State) (addr : Word) (n : Width) (v : Word)
    (h : s.config.memSize < addr.toNat + n.bytes) : s.memWrite addr n v = .error (.memoryAccessError addr) := by
  simp [memWrite, validAccess, h]

/-- Everything a write can answer. -/
theorem State.memWrite_cases (s : State) (addr : Word) (n : Width) (v : Word) :
    (addr.toNat + n.bytes ≤ s.config.memSize ∧
      s.memWrite addr n v = .ok { s with mem := s.mem.writeLE addr.toNat n.bytes v }) ∨
    (s.config.memSize < addr.toNat + n.bytes ∧ s.memWrite addr n v = .error (.memoryAccessError addr)) := by
  rcases Nat.lt_or_ge s.config.memSize (addr.toNat + n.bytes) with h | h
  · exact .inr ⟨h, s.memWrite_of_invalid _ _ _ h⟩
  · exact .inl ⟨h, s.memWrite_of_valid _ _ _ h⟩

/-! ### The shared operations of the meanings -/

theorem writeResult_eq (rd : Reg) (r : Word) (s : State) :
    writeResult rd r s = .next ((s.setReg rd r).setPc (s.pc + 4)) := by
  simp [writeResult, State.advance]

theorem load_of_valid (n : Width) (e : Word → Word) (rd rs1 : Reg) (imm : BitVec 12) (s : State)
    (h : (s.loadAddress rs1 imm).toNat + n.bytes ≤ s.config.memSize) :
    load n e rd rs1 imm s =
      .next ((s.setReg rd (e (s.mem.readLE (s.loadAddress rs1 imm).toNat n.bytes))).setPc (s.pc + 4)) := by
  simp [load, orFault, s.memRead_of_valid _ _ h, writeResult_eq]

theorem load_of_invalid (n : Width) (e : Word → Word) (rd rs1 : Reg) (imm : BitVec 12) (s : State)
    (h : s.config.memSize < (s.loadAddress rs1 imm).toNat + n.bytes) :
    load n e rd rs1 imm s = .fault (.memoryAccessError (s.loadAddress rs1 imm)) := by
  simp [load, orFault, s.memRead_of_invalid _ _ h]

theorem store_of_valid (n : Width) (rs2 rs1 : Reg) (off : Word) (s : State)
    (h : (s.storeAddress rs1 off).toNat + n.bytes ≤ s.config.memSize) :
    store n rs2 rs1 off s =
      .next { s with mem := s.mem.writeLE (s.storeAddress rs1 off).toNat n.bytes (s.reg rs2), pc := s.pc + 4 } := by
  simp [store, orFault, s.memWrite_of_valid _ _ _ h, State.advance, State.setPc]

theorem store_of_invalid (n : Width) (rs2 rs1 : Reg) (off : Word) (s : State)
    (h : s.config.memSize < (s.storeAddress rs1 off).toNat + n.bytes) :
    store n rs2 rs1 off s = .fault (.memoryAccessError (s.storeAddress rs1 off)) := by
  simp [store, orFault, s.memWrite_of_invalid _ _ _ h]

theorem branch_eq (c : Bool) (off : Word) (s : State) :
    branch c off s = .next (s.setPc (if c then s.pc + off else s.pc + 4)) := by
  cases c <;> simp [branch, State.target, State.advance]

/-! ### What an instruction can do -/

/-- The offset an instruction may add to the pc in place of 4. -/
def transferOffset : Instr → Option Word
  | .jal _ off => some off
  | .beq _ _ off => some off
  | .bne _ _ off => some off
  | .blt _ _ off => some off
  | .bge _ _ off => some off
  | .bltu _ _ off => some off
  | .bgeu _ _ off => some off
  | _ => none

/-- A pc an instruction may leave: 4 further, or its offset further. -/
def NextPc (i : Instr) (s : State) (p : Word) : Prop :=
  p = s.pc + 4 ∨ ∃ off, transferOffset i = some off ∧ p = s.pc + off

/-- The ways an instruction can complete. -/
inductive Completes (i : Instr) (s t : State) : Prop where
  /-- It writes its destination and the pc. -/
  | reg (rd : Reg) (v p : Word) (hd : destination i = some rd) (hw : dataWrite s i = none) (hp : NextPc i s p)
      (ht : t = (s.setReg rd v).setPc p)
  /-- It writes the pc only. -/
  | flow (p : Word) (hd : destination i = none) (hw : dataWrite s i = none) (hp : NextPc i s p) (ht : t = s.setPc p)
  /-- It stores, inside memory. -/
  | mem (ea : Word) (n : Width) (v : Word) (hd : destination i = none) (hw : dataWrite s i = some (ea, n))
      (hv : ea.toNat + n.bytes ≤ s.config.memSize)
      (ht : t = { s with mem := s.mem.writeLE ea.toNat n.bytes v, pc := s.pc + 4 })
  /-- It is SYSTEM and ends the run. -/
  | exit (rd : Reg) (f3 : BitVec 3) (rs1 : Reg) (imm : BitVec 12) (hi : i = .system rd f3 rs1 imm)
      (hc : s.config.systemHalts = true) (ht : t = (s.setPc (s.pc + 4)).haltWith .systemExit)

theorem writeResult_completes {i : Instr} {s t : State} {rd : Reg} {v : Word} (hd : destination i = some rd)
    (hw : dataWrite s i = none) (h : writeResult rd v s = .next t) : Completes i s t := by
  rw [writeResult_eq] at h
  injection h with h
  exact .reg rd v _ hd hw (.inl rfl) h.symm

theorem load_completes {i : Instr} {s t : State} {n : Width} {e : Word → Word} {rd rs1 : Reg} {imm : BitVec 12}
    (hd : destination i = some rd) (hw : dataWrite s i = none) (h : load n e rd rs1 imm s = .next t) :
    Completes i s t := by
  rcases Nat.lt_or_ge s.config.memSize ((s.loadAddress rs1 imm).toNat + n.bytes) with hv | hv
  · rw [load_of_invalid _ _ _ _ _ _ hv] at h; cases h
  · rw [load_of_valid _ _ _ _ _ _ hv] at h
    injection h with h
    exact .reg rd _ _ hd hw (.inl rfl) h.symm

theorem store_completes {i : Instr} {s t : State} {n : Width} {rs2 rs1 : Reg} {off : Word}
    (hd : destination i = none) (hw : dataWrite s i = some (s.storeAddress rs1 off, n))
    (h : store n rs2 rs1 off s = .next t) : Completes i s t := by
  rcases Nat.lt_or_ge s.config.memSize ((s.storeAddress rs1 off).toNat + n.bytes) with hv | hv
  · rw [store_of_invalid _ _ _ _ _ hv] at h; cases h
  · rw [store_of_valid _ _ _ _ _ hv] at h
    injection h with h
    exact .mem _ n _ hd hw hv h.symm

theorem branch_completes {i : Instr} {s t : State} {c : Bool} {off : Word} (hd : destination i = none)
    (hw : dataWrite s i = none) (ho : transferOffset i = some off) (h : branch c off s = .next t) :
    Completes i s t := by
  rw [branch_eq] at h
  injection h with h
  refine .flow _ hd hw ?_ h.symm
  cases c
  · exact .inl rfl
  · exact .inr ⟨off, ho, rfl⟩

/-- Everything an instruction that completes can have done (10_state.md R24, R27). -/
theorem exec_completes {i : Instr} {s t : State} (h : exec i s = .next t) : Completes i s t := by
  cases i
  case jal rd off =>
    injection h with h
    exact .reg rd _ _ rfl rfl (.inr ⟨off, rfl, rfl⟩) h.symm
  case system rd f3 rs1 imm =>
    simp only [exec, execSystem] at h
    injection h with h
    by_cases hc : s.config.systemHalts = true
    · exact .exit rd f3 rs1 imm rfl hc (by simpa [hc, State.advance] using h.symm)
    · exact .flow (s.pc + 4) rfl rfl (.inl rfl) (by simpa [hc, State.advance] using h.symm)
  case op2a => cases h
  case lb => exact load_completes rfl rfl h
  case lh => exact load_completes rfl rfl h
  case lw => exact load_completes rfl rfl h
  case lbu => exact load_completes rfl rfl h
  case lhu => exact load_completes rfl rfl h
  case sb => exact store_completes rfl rfl h
  case sh => exact store_completes rfl rfl h
  case sw => exact store_completes rfl rfl h
  case beq => exact branch_completes rfl rfl rfl h
  case bne => exact branch_completes rfl rfl rfl h
  case blt => exact branch_completes rfl rfl rfl h
  case bge => exact branch_completes rfl rfl rfl h
  case bltu => exact branch_completes rfl rfl rfl h
  case bgeu => exact branch_completes rfl rfl rfl h
  all_goals exact writeResult_completes rfl rfl h

/-- What no completed instruction changes, and the one that ends the run (10_state.md R24; 47_system.md R222). -/
theorem exec_keeps {i : Instr} {s t : State} (h : exec i s = .next t) :
    t.config = s.config ∧ t.budgetLeft = s.budgetLeft ∧ t.host = s.host ∧ t.ir = s.ir ∧
    ((t.status = s.status ∧ t.cause = s.cause) ∨
      (t.status = .halted ∧ t.cause = .systemExit ∧ s.config.systemHalts = true ∧
        ∃ rd f3 rs1 imm, i = .system rd f3 rs1 imm)) := by
  cases exec_completes h <;> subst_vars <;> simp_all

theorem load_faults {i : Instr} {s : State} {f : Fault} {n : Width} {e : Word → Word} {rd rs1 : Reg}
    {imm : BitVec 12} (ha : dataAccess s i = some (s.loadAddress rs1 imm, n)) (h : load n e rd rs1 imm s = .fault f) :
    ∃ ea n, dataAccess s i = some (ea, n) ∧ s.config.memSize < ea.toNat + n.bytes ∧ f = .memoryAccessError ea := by
  rcases Nat.lt_or_ge s.config.memSize ((s.loadAddress rs1 imm).toNat + n.bytes) with hv | hv
  · rw [load_of_invalid _ _ _ _ _ _ hv] at h
    injection h with h
    exact ⟨_, _, ha, hv, h.symm⟩
  · rw [load_of_valid _ _ _ _ _ _ hv] at h; cases h

theorem store_faults {i : Instr} {s : State} {f : Fault} {n : Width} {rs2 rs1 : Reg} {off : Word}
    (ha : dataAccess s i = some (s.storeAddress rs1 off, n)) (h : store n rs2 rs1 off s = .fault f) :
    ∃ ea n, dataAccess s i = some (ea, n) ∧ s.config.memSize < ea.toNat + n.bytes ∧ f = .memoryAccessError ea := by
  rcases Nat.lt_or_ge s.config.memSize ((s.storeAddress rs1 off).toNat + n.bytes) with hv | hv
  · rw [store_of_invalid _ _ _ _ _ hv] at h
    injection h with h
    exact ⟨_, _, ha, hv, h.symm⟩
  · rw [store_of_valid _ _ _ _ _ hv] at h; cases h

/-- An instruction raises only MemoryAccessError, at its one data access (60_exceptions.md R269). -/
theorem exec_faults {i : Instr} {s : State} {f : Fault} (h : exec i s = .fault f) :
    ∃ ea n, dataAccess s i = some (ea, n) ∧ s.config.memSize < ea.toNat + n.bytes ∧ f = .memoryAccessError ea := by
  cases i
  case lb => exact load_faults rfl h
  case lh => exact load_faults rfl h
  case lw => exact load_faults rfl h
  case lbu => exact load_faults rfl h
  case lhu => exact load_faults rfl h
  case sb => exact store_faults rfl h
  case sh => exact store_faults rfl h
  case sw => exact store_faults rfl h
  all_goals cases h

/-- An invalid data access makes the instruction raise. -/
theorem exec_of_invalid_access {i : Instr} {s : State} {ea : Word} {n : Width} (ha : dataAccess s i = some (ea, n))
    (hv : s.config.memSize < ea.toNat + n.bytes) : exec i s = .fault (.memoryAccessError ea) := by
  cases i
  case lb => injection ha with ha; injection ha with h1 h2; subst h1 h2; exact load_of_invalid _ _ _ _ _ _ hv
  case lh => injection ha with ha; injection ha with h1 h2; subst h1 h2; exact load_of_invalid _ _ _ _ _ _ hv
  case lw => injection ha with ha; injection ha with h1 h2; subst h1 h2; exact load_of_invalid _ _ _ _ _ _ hv
  case lbu => injection ha with ha; injection ha with h1 h2; subst h1 h2; exact load_of_invalid _ _ _ _ _ _ hv
  case lhu => injection ha with ha; injection ha with h1 h2; subst h1 h2; exact load_of_invalid _ _ _ _ _ _ hv
  case sb => injection ha with ha; injection ha with h1 h2; subst h1 h2; exact store_of_invalid _ _ _ _ _ hv
  case sh => injection ha with ha; injection ha with h1 h2; subst h1 h2; exact store_of_invalid _ _ _ _ _ hv
  case sw => injection ha with ha; injection ha with h1 h2; subst h1 h2; exact store_of_invalid _ _ _ _ _ hv
  all_goals cases ha

theorem load_not_refused (n : Width) (e : Word → Word) (rd rs1 : Reg) (imm : BitVec 12) (s : State) (r : Refusal) :
    load n e rd rs1 imm s ≠ .refused r := by
  rcases Nat.lt_or_ge s.config.memSize ((s.loadAddress rs1 imm).toNat + n.bytes) with hv | hv
  · simp [load_of_invalid _ _ _ _ _ _ hv]
  · simp [load_of_valid _ _ _ _ _ _ hv]

theorem store_not_refused (n : Width) (rs2 rs1 : Reg) (off : Word) (s : State) (r : Refusal) :
    store n rs2 rs1 off s ≠ .refused r := by
  rcases Nat.lt_or_ge s.config.memSize ((s.storeAddress rs1 off).toNat + n.bytes) with hv | hv
  · simp [store_of_invalid _ _ _ _ _ hv]
  · simp [store_of_valid _ _ _ _ _ hv]

/-- Only OP2A is refused by its meaning (48_op2a_unassigned.md R231). -/
theorem exec_refuses {i : Instr} {s : State} {r : Refusal} (h : exec i s = .refused r) :
    (∃ rd f3 rs1 rs2 f7, i = .op2a rd f3 rs1 rs2 f7) ∧ r = .op2aEffectUnspecified := by
  cases i
  case op2a rd f3 rs1 rs2 f7 =>
    injection h with h
    exact ⟨⟨rd, f3, rs1, rs2, f7, rfl⟩, h.symm⟩
  case lb => exact absurd h (load_not_refused _ _ _ _ _ _ _)
  case lh => exact absurd h (load_not_refused _ _ _ _ _ _ _)
  case lw => exact absurd h (load_not_refused _ _ _ _ _ _ _)
  case lbu => exact absurd h (load_not_refused _ _ _ _ _ _ _)
  case lhu => exact absurd h (load_not_refused _ _ _ _ _ _ _)
  case sb => exact absurd h (store_not_refused _ _ _ _ _ _)
  case sh => exact absurd h (store_not_refused _ _ _ _ _ _)
  case sw => exact absurd h (store_not_refused _ _ _ _ _ _)
  all_goals cases h

end Sys2Proof.Machine
end

