-- ==== Sys2Proof/Laws/PerInstr.lean ====
section
/-! SUPPORT. One lemma per instruction: its word matches its row of the opcode table (30_encoding.md R100). -/

namespace Sys2Proof.Laws.RowMatch

/-- The table has a row of the instruction's mnemonic, and the instruction's word matches it. -/
def Statement (i : Instr) : Prop :=
  ∃ row ∈ opcodeTable, row.mnemonic = i.mnemonic ∧ encode i &&& row.mask = row.pattern

theorem lui (rd : Reg) (imm : BitVec 20) : Statement (.lui rd imm) :=
  ⟨⟨"LUI", 0x00000037, 0x0000007F⟩, by decide, rfl, (and_op_eq_iff (by decide)).2 (by simp [encode]; rfl)⟩

theorem jal (rd : Reg) (off : Word) : Statement (.jal rd off) :=
  ⟨⟨"JAL", 0x0000006F, 0x0000007F⟩, by decide, rfl, (and_op_eq_iff (by decide)).2 (by simp [encode]; rfl)⟩

theorem beq (rs1 rs2 : Reg) (off : Word) : Statement (.beq rs1 rs2 off) :=
  ⟨⟨"BEQ", 0x00000063, 0x0000707F⟩, by decide, rfl, (and_op_funct3_eq_iff (by decide)).2 (by simp [encode]; exact ⟨rfl, rfl⟩)⟩

theorem bne (rs1 rs2 : Reg) (off : Word) : Statement (.bne rs1 rs2 off) :=
  ⟨⟨"BNE", 0x00001063, 0x0000707F⟩, by decide, rfl, (and_op_funct3_eq_iff (by decide)).2 (by simp [encode]; exact ⟨rfl, rfl⟩)⟩

theorem blt (rs1 rs2 : Reg) (off : Word) : Statement (.blt rs1 rs2 off) :=
  ⟨⟨"BLT", 0x00004063, 0x0000707F⟩, by decide, rfl, (and_op_funct3_eq_iff (by decide)).2 (by simp [encode]; exact ⟨rfl, rfl⟩)⟩

theorem bge (rs1 rs2 : Reg) (off : Word) : Statement (.bge rs1 rs2 off) :=
  ⟨⟨"BGE", 0x00005063, 0x0000707F⟩, by decide, rfl, (and_op_funct3_eq_iff (by decide)).2 (by simp [encode]; exact ⟨rfl, rfl⟩)⟩

theorem bltu (rs1 rs2 : Reg) (off : Word) : Statement (.bltu rs1 rs2 off) :=
  ⟨⟨"BLTU", 0x00006063, 0x0000707F⟩, by decide, rfl, (and_op_funct3_eq_iff (by decide)).2 (by simp [encode]; exact ⟨rfl, rfl⟩)⟩

theorem bgeu (rs1 rs2 : Reg) (off : Word) : Statement (.bgeu rs1 rs2 off) :=
  ⟨⟨"BGEU", 0x00007063, 0x0000707F⟩, by decide, rfl, (and_op_funct3_eq_iff (by decide)).2 (by simp [encode]; exact ⟨rfl, rfl⟩)⟩

theorem lb (rd rs1 : Reg) (imm : BitVec 12) : Statement (.lb rd rs1 imm) :=
  ⟨⟨"LB", 0x00000003, 0x0000707F⟩, by decide, rfl, (and_op_funct3_eq_iff (by decide)).2 (by simp [encode]; exact ⟨rfl, rfl⟩)⟩

theorem lh (rd rs1 : Reg) (imm : BitVec 12) : Statement (.lh rd rs1 imm) :=
  ⟨⟨"LH", 0x00001003, 0x0000707F⟩, by decide, rfl, (and_op_funct3_eq_iff (by decide)).2 (by simp [encode]; exact ⟨rfl, rfl⟩)⟩

theorem lw (rd rs1 : Reg) (imm : BitVec 12) : Statement (.lw rd rs1 imm) :=
  ⟨⟨"LW", 0x00002003, 0x0000707F⟩, by decide, rfl, (and_op_funct3_eq_iff (by decide)).2 (by simp [encode]; exact ⟨rfl, rfl⟩)⟩

theorem lbu (rd rs1 : Reg) (imm : BitVec 12) : Statement (.lbu rd rs1 imm) :=
  ⟨⟨"LBU", 0x00004003, 0x0000707F⟩, by decide, rfl, (and_op_funct3_eq_iff (by decide)).2 (by simp [encode]; exact ⟨rfl, rfl⟩)⟩

theorem lhu (rd rs1 : Reg) (imm : BitVec 12) : Statement (.lhu rd rs1 imm) :=
  ⟨⟨"LHU", 0x00005003, 0x0000707F⟩, by decide, rfl, (and_op_funct3_eq_iff (by decide)).2 (by simp [encode]; exact ⟨rfl, rfl⟩)⟩

theorem sb (rs2 rs1 : Reg) (off : Word) : Statement (.sb rs2 rs1 off) :=
  ⟨⟨"SB", 0x00000023, 0x0000707F⟩, by decide, rfl, (and_op_funct3_eq_iff (by decide)).2 (by simp [encode]; exact ⟨rfl, rfl⟩)⟩

theorem sh (rs2 rs1 : Reg) (off : Word) : Statement (.sh rs2 rs1 off) :=
  ⟨⟨"SH", 0x00001023, 0x0000707F⟩, by decide, rfl, (and_op_funct3_eq_iff (by decide)).2 (by simp [encode]; exact ⟨rfl, rfl⟩)⟩

theorem sw (rs2 rs1 : Reg) (off : Word) : Statement (.sw rs2 rs1 off) :=
  ⟨⟨"SW", 0x00002023, 0x0000707F⟩, by decide, rfl, (and_op_funct3_eq_iff (by decide)).2 (by simp [encode]; exact ⟨rfl, rfl⟩)⟩

theorem addi (rd rs1 : Reg) (imm : BitVec 12) : Statement (.addi rd rs1 imm) :=
  ⟨⟨"ADDI", 0x00000013, 0x0000707F⟩, by decide, rfl, (and_op_funct3_eq_iff (by decide)).2 (by simp [encode]; exact ⟨rfl, rfl⟩)⟩

theorem slti (rd rs1 : Reg) (imm : BitVec 12) : Statement (.slti rd rs1 imm) :=
  ⟨⟨"SLTI", 0x00002013, 0x0000707F⟩, by decide, rfl, (and_op_funct3_eq_iff (by decide)).2 (by simp [encode]; exact ⟨rfl, rfl⟩)⟩

theorem sltiu (rd rs1 : Reg) (imm : BitVec 12) : Statement (.sltiu rd rs1 imm) :=
  ⟨⟨"SLTIU", 0x00003013, 0x0000707F⟩, by decide, rfl, (and_op_funct3_eq_iff (by decide)).2 (by simp [encode]; exact ⟨rfl, rfl⟩)⟩

theorem xori (rd rs1 : Reg) (imm : BitVec 12) : Statement (.xori rd rs1 imm) :=
  ⟨⟨"XORI", 0x00004013, 0x0000707F⟩, by decide, rfl, (and_op_funct3_eq_iff (by decide)).2 (by simp [encode]; exact ⟨rfl, rfl⟩)⟩

theorem ori (rd rs1 : Reg) (imm : BitVec 12) : Statement (.ori rd rs1 imm) :=
  ⟨⟨"ORI", 0x00006013, 0x0000707F⟩, by decide, rfl, (and_op_funct3_eq_iff (by decide)).2 (by simp [encode]; exact ⟨rfl, rfl⟩)⟩

theorem andi (rd rs1 : Reg) (imm : BitVec 12) : Statement (.andi rd rs1 imm) :=
  ⟨⟨"ANDI", 0x00007013, 0x0000707F⟩, by decide, rfl, (and_op_funct3_eq_iff (by decide)).2 (by simp [encode]; exact ⟨rfl, rfl⟩)⟩

theorem slli (rd rs1 : Reg) (shamt : BitVec 5) : Statement (.slli rd rs1 shamt) :=
  ⟨⟨"SLLI", 0x00001013, 0xFE00707F⟩, by decide, rfl, (and_op_funct3_funct7_eq_iff (by decide)).2 (by simp [encode]; exact ⟨rfl, rfl, rfl⟩)⟩

theorem srli (rd rs1 : Reg) (shamt : BitVec 5) : Statement (.srli rd rs1 shamt) :=
  ⟨⟨"SRLI", 0x00005013, 0xFE00707F⟩, by decide, rfl, (and_op_funct3_funct7_eq_iff (by decide)).2 (by simp [encode]; exact ⟨rfl, rfl, rfl⟩)⟩

theorem srai (rd rs1 : Reg) (shamt : BitVec 5) : Statement (.srai rd rs1 shamt) :=
  ⟨⟨"SRAI", 0x40005013, 0xFE00707F⟩, by decide, rfl, (and_op_funct3_funct7_eq_iff (by decide)).2 (by simp [encode]; exact ⟨rfl, rfl, rfl⟩)⟩

theorem add (rd rs1 rs2 : Reg) : Statement (.add rd rs1 rs2) :=
  ⟨⟨"ADD", 0x00000033, 0xFE00707F⟩, by decide, rfl, (and_op_funct3_funct7_eq_iff (by decide)).2 (by simp [encode]; exact ⟨rfl, rfl, rfl⟩)⟩

theorem sub (rd rs1 rs2 : Reg) : Statement (.sub rd rs1 rs2) :=
  ⟨⟨"SUB", 0x40000033, 0xFE00707F⟩, by decide, rfl, (and_op_funct3_funct7_eq_iff (by decide)).2 (by simp [encode]; exact ⟨rfl, rfl, rfl⟩)⟩

theorem sll (rd rs1 rs2 : Reg) : Statement (.sll rd rs1 rs2) :=
  ⟨⟨"SLL", 0x00001033, 0xFE00707F⟩, by decide, rfl, (and_op_funct3_funct7_eq_iff (by decide)).2 (by simp [encode]; exact ⟨rfl, rfl, rfl⟩)⟩

theorem slt (rd rs1 rs2 : Reg) : Statement (.slt rd rs1 rs2) :=
  ⟨⟨"SLT", 0x00002033, 0xFE00707F⟩, by decide, rfl, (and_op_funct3_funct7_eq_iff (by decide)).2 (by simp [encode]; exact ⟨rfl, rfl, rfl⟩)⟩

theorem sltu (rd rs1 rs2 : Reg) : Statement (.sltu rd rs1 rs2) :=
  ⟨⟨"SLTU", 0x00003033, 0xFE00707F⟩, by decide, rfl, (and_op_funct3_funct7_eq_iff (by decide)).2 (by simp [encode]; exact ⟨rfl, rfl, rfl⟩)⟩

theorem xor (rd rs1 rs2 : Reg) : Statement (.xor rd rs1 rs2) :=
  ⟨⟨"XOR", 0x00004033, 0xFE00707F⟩, by decide, rfl, (and_op_funct3_funct7_eq_iff (by decide)).2 (by simp [encode]; exact ⟨rfl, rfl, rfl⟩)⟩

theorem srl (rd rs1 rs2 : Reg) : Statement (.srl rd rs1 rs2) :=
  ⟨⟨"SRL", 0x00005033, 0xFE00707F⟩, by decide, rfl, (and_op_funct3_funct7_eq_iff (by decide)).2 (by simp [encode]; exact ⟨rfl, rfl, rfl⟩)⟩

theorem sra (rd rs1 rs2 : Reg) : Statement (.sra rd rs1 rs2) :=
  ⟨⟨"SRA", 0x40005033, 0xFE00707F⟩, by decide, rfl, (and_op_funct3_funct7_eq_iff (by decide)).2 (by simp [encode]; exact ⟨rfl, rfl, rfl⟩)⟩

theorem or (rd rs1 rs2 : Reg) : Statement (.or rd rs1 rs2) :=
  ⟨⟨"OR", 0x00006033, 0xFE00707F⟩, by decide, rfl, (and_op_funct3_funct7_eq_iff (by decide)).2 (by simp [encode]; exact ⟨rfl, rfl, rfl⟩)⟩

theorem and (rd rs1 rs2 : Reg) : Statement (.and rd rs1 rs2) :=
  ⟨⟨"AND", 0x00007033, 0xFE00707F⟩, by decide, rfl, (and_op_funct3_funct7_eq_iff (by decide)).2 (by simp [encode]; exact ⟨rfl, rfl, rfl⟩)⟩

theorem system (rd : Reg) (funct3 : BitVec 3) (rs1 : Reg) (imm : BitVec 12) : Statement (.system rd funct3 rs1 imm) :=
  ⟨⟨"SYSTEM", 0x00000073, 0x0000007F⟩, by decide, rfl, (and_op_eq_iff (by decide)).2 (by simp [encode]; rfl)⟩

theorem op2a (rd : Reg) (funct3 : BitVec 3) (rs1 rs2 : Reg) (funct7 : BitVec 7) : Statement (.op2a rd funct3 rs1 rs2 funct7) :=
  ⟨⟨"OP2A", 0x0000002A, 0x0000007F⟩, by decide, rfl, (and_op_eq_iff (by decide)).2 (by simp [encode]; rfl)⟩

end Sys2Proof.Laws.RowMatch
end

