-- ==== Sys2Proof/Laws/Step.lean ====
section
/-! SUPPORT. Everything a step can do, said once: the ways a step answers a next state, and the forward equations of a
step that fetches. -/

namespace Sys2Proof.Machine

/-! ### Execute -/

theorem settle_next (s t : State) : settle s (.next t) = .next t.retire := rfl

theorem settle_fault (s : State) (f : Fault) : settle s (.fault f) = .next (s.takeFault f) := rfl

theorem settle_refused (s : State) (r : Refusal) : settle s (.refused r) = .refused r := rfl

theorem executePhase_instr {b : State} {i : Instr} (h : decodeWord b.ir = .instr i) :
    executePhase b = settle b (exec i b) := by
  simp only [executePhase, h]

theorem executePhase_unassigned {b : State} {w : Word} (h : decodeWord b.ir = .unassigned w) :
    executePhase b = .refused (.unassignedSubEncoding w) := by
  simp only [executePhase, h]

theorem executePhase_illegal {b : State} {w : Word} (h : decodeWord b.ir = .illegal w) :
    executePhase b = .next (b.takeFault (.decodeError w)) := by
  simp only [executePhase, h]

/-- An unrecognised opcode is the only word class `illegal`, and it carries the word. -/
theorem decodeWord_of_illegal {w x : Word} (h : decodeWord w = .illegal x) : decodeRecord w = none ∧ x = w := by
  unfold decodeWord at h
  cases hr : decodeRecord w with
  | none => simp [hr] at h; exact ⟨rfl, h.symm⟩
  | some r => cases hs : select r <;> simp [hr, hs] at h

theorem decodeWord_of_unassigned {w x : Word} (h : decodeWord w = .unassigned x) : x = w := by
  unfold decodeWord at h
  cases hr : decodeRecord w with
  | none => simp [hr] at h
  | some r =>
    cases hs : select r with
    | none => simp [hr, hs] at h; exact h.symm
    | some i => simp [hr, hs] at h

theorem decodeWord_of_none {w : Word} (h : decodeRecord w = none) : decodeWord w = .illegal w := by
  simp only [decodeWord, h]

/-! ### The ways a step answers a next state -/

/-- The state in which Trace/Prompt is entered: after a fetch inside memory, or, for a held pass, as it rests. -/
inductive Entered (s b : State) : Prop where
  | fetched (ha : s.hostAction = .quiet ∨ s.hostAction = .hold) (hp : s.phase = .fetch)
      (hb : s.budgetLeft.spent = false) (hv : s.pc.toNat + 4 ≤ s.config.memSize)
      (hr : (decodeRecord b.ir).isSome = true)
      (h : b = { s.hostTaken with ir := s.mem.readLE s.pc.toNat 4 })
  | held (hp : s.phase = .tracePrompt) (h : b = s.hostTaken)

/-- All the next states of a step. -/
inductive StepsTo (s t : State) : Prop where
  /-- Reset (70_reset_and_hazards.md R300). -/
  | reset (ha : s.hostAction = .reset) (ht : t = s.hostTaken.applyReset)
  /-- Launch while Idle (R301). -/
  | launched (p : Launch) (ha : s.hostAction = .launch p) (hs : s.status = .idle)
      (ht : s.hostTaken.launch p = .next t)
  /-- Idle or Halted, nothing happens (10_state.md R35; 49_fetch_execute_loop.md R254). -/
  | rests (ha : s.hostAction ≠ .reset) (hs : s.status ≠ .running) (ht : t = s.hostTaken)
  /-- Abort at a step boundary (R250). -/
  | aborted (ha : s.hostAction = .abort) (hs : s.status = .running) (hp : s.phase = .fetch)
      (ht : t = s.hostTaken.haltWith .externalAbort)
  /-- The budget is spent (R248). -/
  | spent (ha : s.hostAction = .quiet ∨ s.hostAction = .hold) (hs : s.status = .running) (hp : s.phase = .fetch)
      (hb : s.budgetLeft.spent = true) (ht : t = s.hostTaken.haltWith .budgetExhausted)
  /-- The fetch ends outside memory (R241). -/
  | fetchFault (ha : s.hostAction = .quiet ∨ s.hostAction = .hold) (hs : s.status = .running) (hp : s.phase = .fetch)
      (hb : s.budgetLeft.spent = false) (hv : s.config.memSize < s.pc.toNat + 4)
      (ht : t = s.hostTaken.takeFault (.memoryAccessError s.pc))
  /-- The fetched word has an unrecognised opcode (R242). -/
  | decodeFault (ha : s.hostAction = .quiet ∨ s.hostAction = .hold) (hs : s.status = .running) (hp : s.phase = .fetch)
      (hb : s.budgetLeft.spent = false) (hv : s.pc.toNat + 4 ≤ s.config.memSize) (w : Word)
      (hw : w = s.mem.readLE s.pc.toNat 4) (hr : decodeRecord w = none)
      (ht : t = { s.hostTaken with ir := w }.takeFault (.decodeError w))
  /-- The host holds the pass in Trace/Prompt (10_state.md R42). -/
  | holds (b : State) (ha : s.hostAction = .hold) (hs : s.status = .running) (he : Entered s b)
      (ht : t = { b with phase := .tracePrompt })
  /-- A pass held with an undecodable IR, which no run reaches. -/
  | heldIllegal (ha : s.hostAction ≠ .hold) (hs : s.status = .running) (hp : s.phase = .tracePrompt)
      (hr : decodeRecord s.ir = none) (ht : t = s.hostTaken.takeFault (.decodeError s.ir))
  /-- The instruction completes (R252). -/
  | completes (b u : State) (i : Instr) (ha : s.hostAction = .quiet ∨ s.hostAction = .abort) (hs : s.status = .running)
      (he : Entered s b) (hi : decodeWord b.ir = .instr i) (hx : exec i b = .next u) (ht : t = u.retire)
  /-- The instruction raises (R252, 60_exceptions.md R271). -/
  | raises (b : State) (i : Instr) (f : Fault) (ha : s.hostAction = .quiet ∨ s.hostAction = .abort)
      (hs : s.status = .running) (he : Entered s b) (hi : decodeWord b.ir = .instr i) (hx : exec i b = .fault f)
      (ht : t = b.takeFault f)

theorem executePhase_stepsTo {s b t : State} (ha : s.hostAction = .quiet ∨ s.hostAction = .abort)
    (hs : s.status = .running) (he : Entered s b) (h : executePhase b = .next t) : StepsTo s t := by
  cases hd : decodeWord b.ir with
  | instr i =>
    rw [executePhase_instr hd] at h
    cases hx : exec i b with
    | next u => rw [hx] at h; injection h with h; exact .completes b u i ha hs he hd hx h.symm
    | fault f => rw [hx] at h; injection h with h; exact .raises b i f ha hs he hd hx h.symm
    | refused r => rw [hx] at h; cases h
  | unassigned w => rw [executePhase_unassigned hd] at h; cases h
  | illegal w =>
    obtain ⟨hn, rfl⟩ := decodeWord_of_illegal hd
    rw [executePhase_illegal hd] at h
    injection h with h
    cases he with
    | fetched _ _ _ _ hr _ => simp [hn] at hr
    | held hp hb =>
      subst hb
      exact .heldIllegal (by rcases ha with ha | ha <;> simp [ha]) hs hp hn h.symm

theorem promptPhase_stepsTo {s b t : State} (ha : s.hostAction = .quiet ∨ s.hostAction = .hold ∨ s.hostAction = .abort)
    (hs : s.status = .running) (he : Entered s b) (h : promptPhase s.hostAction b = .next t) : StepsTo s t := by
  rcases ha with ha | ha | ha <;> rw [ha] at h
  · exact executePhase_stepsTo (.inl ha) hs he h
  · injection h with h; exact .holds b ha hs he h.symm
  · exact executePhase_stepsTo (.inr ha) hs he h

theorem fetchPhase_stepsTo {s t : State} (ha : s.hostAction = .quiet ∨ s.hostAction = .hold) (hs : s.status = .running)
    (hp : s.phase = .fetch) (hb : s.budgetLeft.spent = false) (h : fetchPhase s.hostAction s.hostTaken = .next t) :
    StepsTo s t := by
  unfold fetchPhase at h
  rcases s.hostTaken.memRead_cases s.pc .word with ⟨hv, hm⟩ | ⟨hv, hm⟩
  · rw [State.fetch, show s.hostTaken.pc = s.pc from rfl, hm] at h
    simp only [decodePhase] at h
    cases hr : decodeRecord (s.hostTaken.mem.readLE s.pc.toNat Width.word.bytes) with
    | none => rw [hr] at h; injection h with h; exact .decodeFault ha hs hp hb hv _ rfl hr h.symm
    | some r =>
      rw [hr] at h
      exact promptPhase_stepsTo (by tauto) hs (.fetched ha hp hb hv (Option.isSome_of_eq_some hr) rfl) h
  · rw [State.fetch, show s.hostTaken.pc = s.pc from rfl, hm] at h
    injection h with h
    exact .fetchFault ha hs hp hb hv h.symm

theorem runningStep_stepsTo {s t : State}
    (ha : s.hostAction = .quiet ∨ s.hostAction = .hold ∨ s.hostAction = .abort)
    (hs : s.status = .running) (h : runningStep s.hostAction s.hostTaken = .next t) : StepsTo s t := by
  unfold runningStep at h
  cases hp : s.phase with
  | tracePrompt =>
    rw [show s.hostTaken.phase = .tracePrompt from hp] at h
    exact promptPhase_stepsTo ha hs (.held hp rfl) h
  | fetch =>
    rw [show s.hostTaken.phase = .fetch from hp] at h
    simp only [boundary] at h
    by_cases hab : s.hostAction = .abort
    · rw [hab] at h; injection h with h; exact .aborted hab hs hp h.symm
    · have ha' : s.hostAction = .quiet ∨ s.hostAction = .hold := by tauto
      have hna : s.hostAction.isAbort = false := by rcases ha' with e | e <;> rw [e] <;> rfl
      rw [hna] at h
      by_cases hb : s.budgetLeft.spent = true
      · simp only [State.hostTaken_budgetLeft, hb] at h
        injection h with h
        exact .spent ha' hs hp hb h.symm
      · simp only [State.hostTaken_budgetLeft, Bool.not_eq_true _ ▸ hb] at h
        exact fetchPhase_stepsTo ha' hs hp (Bool.not_eq_true _ ▸ hb) h

/-- Every way a step answers a next state (49_fetch_execute_loop.md R252). -/
theorem step_cases {s t : State} (h : step s = .next t) : StepsTo s t := by
  unfold step at h
  cases hs : s.status <;> cases ha : s.hostAction <;>
    simp only [stepUnder, ha, State.hostTaken_status, hs] at h
  case running.quiet => exact runningStep_stepsTo (.inl ha) hs (ha ▸ h)
  case running.hold => exact runningStep_stepsTo (.inr (.inl ha)) hs (ha ▸ h)
  case running.abort => exact runningStep_stepsTo (.inr (.inr ha)) hs (ha ▸ h)
  case idle.launch p => exact .launched p ha hs h
  case idle.reset => injection h with h; exact .reset ha h.symm
  case running.reset => injection h with h; exact .reset ha h.symm
  case halted.reset => injection h with h; exact .reset ha h.symm
  all_goals first
    | (injection h with h; exact .rests (by simp [ha]) (by simp [hs]) h.symm)
    | cases h

/-! ### A step that fetches -/

/-- The state of a pass that has fetched `w`. -/
def State.latched (s : State) (w : Word) : State := { s.hostTaken with ir := w }

theorem step_of_atFetch {s : State} (h : s.AtFetch) : step s = fetchPhase .quiet s.hostTaken := by
  obtain ⟨hs, hp, hb, ha⟩ := h
  simp [step, stepUnder, ha, hs, runningStep, hp, boundary, hb, HostAction.isAbort]

/-- A fetch inside memory: the step is Execute on the fetched word, or the DecodeError of Decode, which Execute gives
too. -/
theorem step_of_fetched {s : State} {w : Word} (h : s.AtFetch) (hw : s.memRead s.pc .word = .ok w) :
    step s = executePhase (s.latched w) := by
  have hf : s.hostTaken.fetch = .ok w := hw
  rw [step_of_atFetch h]
  simp only [fetchPhase, hf, decodePhase]
  cases hr : decodeRecord w with
  | none => simp [State.latched, executePhase, decodeWord_of_none hr]
  | some r => rfl

theorem step_of_fetch_fault {s : State} (h : s.AtFetch) (hv : s.config.memSize < s.pc.toNat + 4) :
    step s = .next (s.hostTaken.takeFault (.memoryAccessError s.pc)) := by
  have hf : s.hostTaken.fetch = .error (.memoryAccessError s.pc) := s.hostTaken.memRead_of_invalid s.pc .word hv
  rw [step_of_atFetch h]
  simp only [fetchPhase, hf]

theorem step_of_instr {s : State} {w : Word} {i : Instr} (h : s.AtFetch) (hw : s.memRead s.pc .word = .ok w)
    (hi : decodeWord w = .instr i) : step s = settle (s.latched w) (exec i (s.latched w)) := by
  rw [step_of_fetched h hw]
  exact executePhase_instr hi

/-! ### A step under hold, and the step that a release lets go on (10_state.md R42) -/

theorem Budget.spent_iff (b : Budget) : b.spent = true ↔ b = .bounded 0 := by
  cases b with
  | unbounded => simp [Budget.spent]
  | bounded n => cases n <;> simp [Budget.spent]

theorem step_of_hold {s : State} (hs : s.status = .running) (hp : s.phase = .fetch) (ha : s.hostAction = .hold) :
    step s = if s.budgetLeft.spent = true then .next (s.hostTaken.haltWith .budgetExhausted)
      else fetchPhase .hold s.hostTaken := by
  simp [step, stepUnder, ha, hs, runningStep, hp, boundary, HostAction.isAbort]
  rfl

theorem step_of_released {s : State} (hs : s.status = .running) (hp : s.phase = .tracePrompt)
    (ha : s.hostAction = .quiet) : step s = executePhase s.hostTaken := by
  simp [step, stepUnder, ha, hs, runningStep, hp, promptPhase, HostAction.isHold]

/-! ### What the phase of the pass cannot change (10_state.md R42) -/

theorem settle_writeResult_phase (rd : Reg) (v : Word) (b : State) (p : Phase) :
    settle { b with phase := p } (writeResult rd v { b with phase := p }) = settle b (writeResult rd v b) := by
  by_cases h : rd = 0 <;> simp only [writeResult, State.setReg, h] <;> rfl

theorem settle_load_phase (n : Width) (e : Word → Word) (rd rs1 : Reg) (imm : BitVec 12) (b : State) (p : Phase) :
    settle { b with phase := p } (load n e rd rs1 imm { b with phase := p }) = settle b (load n e rd rs1 imm b) := by
  show settle { b with phase := p } (orFault (b.memRead (b.loadAddress rs1 imm) n) fun v =>
    writeResult rd (e v) { b with phase := p }) = settle b (orFault (b.memRead (b.loadAddress rs1 imm) n) fun v =>
    writeResult rd (e v) b)
  cases b.memRead (b.loadAddress rs1 imm) n with
  | error f => rfl
  | ok v => exact settle_writeResult_phase rd (e v) b p

theorem settle_store_phase (n : Width) (rs2 rs1 : Reg) (off : Word) (b : State) (p : Phase) :
    settle { b with phase := p } (store n rs2 rs1 off { b with phase := p }) = settle b (store n rs2 rs1 off b) := by
  rcases Nat.lt_or_ge b.config.memSize ((b.storeAddress rs1 off).toNat + n.bytes) with h | h
  · rw [store_of_invalid n rs2 rs1 off b h,
      show store n rs2 rs1 off { b with phase := p } = _ from store_of_invalid n rs2 rs1 off { b with phase := p } h]
    rfl
  · rw [store_of_valid n rs2 rs1 off b h,
      show store n rs2 rs1 off { b with phase := p } = _ from store_of_valid n rs2 rs1 off { b with phase := p } h]
    rfl

theorem settle_branch_phase (c : Bool) (off : Word) (b : State) (p : Phase) :
    settle { b with phase := p } (branch c off { b with phase := p }) = settle b (branch c off b) := by
  cases c <;> rfl

/-- Executing an instruction ends the same whether or not the pass was held before it (10_state.md R42). -/
theorem settle_exec_phase (i : Instr) (b : State) (p : Phase) :
    settle { b with phase := p } (exec i { b with phase := p }) = settle b (exec i b) := by
  cases i
  case lb => exact settle_load_phase ..
  case lh => exact settle_load_phase ..
  case lw => exact settle_load_phase ..
  case lbu => exact settle_load_phase ..
  case lhu => exact settle_load_phase ..
  case sb => exact settle_store_phase ..
  case sh => exact settle_store_phase ..
  case sw => exact settle_store_phase ..
  case beq => exact settle_branch_phase ..
  case bne => exact settle_branch_phase ..
  case blt => exact settle_branch_phase ..
  case bge => exact settle_branch_phase ..
  case bltu => exact settle_branch_phase ..
  case bgeu => exact settle_branch_phase ..
  case op2a => rfl
  case system =>
    simp only [exec, execSystem]
    split <;> rfl
  case jal rd off =>
    by_cases h : rd = 0 <;> simp only [exec, execJal, State.setReg, h] <;> rfl
  all_goals exact settle_writeResult_phase ..

/-! ### Runs -/

theorem anyRun_of_next (M : Host.Core) {s t : M.State} (k : Nat) (h : M.step s = .next t) :
    M.run (k + 1) s = M.run k t := by
  simp only [Host.Core.run, h]

theorem anyRun_of_refused (M : Host.Core) {s : M.State} {r : M.Refusal} (k : Nat) (h : M.step s = .refused r) :
    M.run (k + 1) s = .refused r := by
  simp only [Host.Core.run, h]

theorem run_of_next {s t : State} (k : Nat) (h : step s = .next t) :
    Host.Core.run core (k + 1) s = Host.Core.run core k t :=
  anyRun_of_next core k h

theorem run_of_refused {s : State} {r : Refusal} (k : Nat) (h : step s = .refused r) :
    Host.Core.run core (k + 1) s = .refused r :=
  anyRun_of_refused core k h

/-- The machine takes every fault: its step answers none (49_fetch_execute_loop.md R252). -/
theorem step_ne_fault (s : State) (f : Fault) : step s ≠ .fault f := by
  have hx : ∀ b, executePhase b ≠ .fault f := by
    intro b h
    unfold executePhase settle at h
    split at h
    · split at h <;> cases h
    · cases h
    · cases h
  have hp : ∀ a b, promptPhase a b ≠ .fault f := by
    intro a b h
    unfold promptPhase at h
    split at h
    · cases h
    · exact hx _ h
  have hf : ∀ a b, fetchPhase a b ≠ .fault f := by
    intro a b h
    unfold fetchPhase at h
    split at h
    · cases h
    · unfold decodePhase at h
      split at h
      · cases h
      · exact hp _ _ h
  have hr : ∀ a b, runningStep a b ≠ .fault f := by
    intro a b h
    unfold runningStep at h
    split at h
    · unfold boundary at h
      split at h
      · cases h
      · split at h
        · cases h
        · exact hf _ _ h
    · exact hp _ _ h
  intro h
  unfold step stepUnder at h
  split at h
  case h_2 => unfold State.launch at h; split at h <;> cases h
  all_goals first | exact hr _ _ h | cases h

end Sys2Proof.Machine
end

