-- ==== Sys2Proof/Tests/Slice0.lean ====
section
/-! SUPPORT. The model's own tests. Expected values are the spec's: its encodings (30_encoding.md R82 to R100), its
worked examples and vectors (95_test_vectors.md, the row named at each test). Then one witness for every statement that
has hypotheses. -/

open Sys2Proof Sys2Proof.Machine

namespace Sys2Proof.Tests

/-! ### Helpers -/

/-- A Running block at pc 0x100 with some registers set (the convention of 95_test_vectors.md). -/
def machine (rs : List (Reg × Word)) : State :=
  rs.foldl (fun s p => s.setReg p.1 p.2) { State.reset with status := .running, pc := 0x100 }

/-- The same with a word where the next step fetches. -/
def fetching (w : Word) (rs : List (Reg × Word)) : State := (machine rs).placeWord w

/-- The next state, if there is one. -/
def next? (o : Host.Outcome State Fault Refusal) : Option State :=
  match o with
  | .next t => some t
  | .fault _ => none
  | .refused _ => none

/-- The refusal, if it is one. -/
def refusal? (o : Host.Outcome State Fault Refusal) : Option Refusal :=
  match o with
  | .next _ => none
  | .fault _ => none
  | .refused r => some r

/-- x3 and the pc after one instruction. -/
def x3AndPc (i : Instr) (rs : List (Reg × Word)) : Option (Word × Word) :=
  (next? (exec i (machine rs))).map fun t => (t.reg 3, t.pc)

/-- The bytes 0x2000 to 0x2007 after one instruction. -/
def bytes2000 (i : Instr) (s : State) : Option (List Byte) :=
  (next? (exec i s)).map fun t => (List.range 8).map fun k => t.byteAt (0x2000 + k)

/-- The memory of the load vectors: 80 FF 7F 01 EF BE AD DE at 0x2000. -/
def loadMachine (rs : List (Reg × Word)) : State :=
  { machine rs with mem := [(0x2000, 0x80), (0x2001, 0xFF), (0x2002, 0x7F), (0x2003, 0x01), (0x2004, 0xEF),
                            (0x2005, 0xBE), (0x2006, 0xAD), (0x2007, 0xDE)] }

/-- x3 after one load from that memory. -/
def loaded (i : Instr) (rs : List (Reg × Word)) : Option Word :=
  (next? (exec i (loadMachine rs))).map fun t => t.reg 3

/-- The memory of the store vectors: eight bytes 11 at 0x2000; x2 = 0xA1B2C3D4. -/
def storeMachine (x1 : Word) : State :=
  { machine [(1, x1), (2, 0xA1B2C3D4)] with mem := (List.range 8).map fun k => (0x2000 + k, 0x11) }

/-! ### Decoding: words written bit by bit from the layouts of R82 to R87 and the table of R100 -/

theorem test_decode_lui : decodeWord (0b11011110101011011100#20 ++ 0b00101#5 ++ 0b0110111#7) = .instr (.lui 5 0xDEADC) := by
  decide

/-- imm = {p[20], p[10:1], p[11], p[19:12]} of the offset −4. -/
theorem test_decode_jal :
    decodeWord (0b1#1 ++ 0b1111111110#10 ++ 0b1#1 ++ 0b11111111#8 ++ 0b00000#5 ++ 0b1101111#7)
      = .instr (.jal 0 (-4)) := by
  decide

/-- imm_hi = {p[12], p[10:5]} and imm_lo = {p[4:1], p[11]} of the offset 2730 = 0xAAA. -/
theorem test_decode_beq :
    decodeWord (0b0#1 ++ 0b010101#6 ++ 0b00010#5 ++ 0b00001#5 ++ 0b000#3 ++ 0b0101#4 ++ 0b1#1 ++ 0b1100011#7)
      = .instr (.beq 1 2 2730) := by
  decide

/-- The offset −8. -/
theorem test_decode_bne :
    decodeWord (0b1#1 ++ 0b111111#6 ++ 0b00010#5 ++ 0b00001#5 ++ 0b001#3 ++ 0b1100#4 ++ 0b1#1 ++ 0b1100011#7)
      = .instr (.bne 1 2 (-8)) := by
  decide

/-- The offset 8. -/
theorem test_decode_blt :
    decodeWord (0b0#1 ++ 0b000000#6 ++ 0b00010#5 ++ 0b00001#5 ++ 0b100#3 ++ 0b0100#4 ++ 0b0#1 ++ 0b1100011#7)
      = .instr (.blt 1 2 8) := by
  decide

theorem test_decode_bge :
    decodeWord (0b0#1 ++ 0b000000#6 ++ 0b00010#5 ++ 0b00001#5 ++ 0b101#3 ++ 0b0100#4 ++ 0b0#1 ++ 0b1100011#7)
      = .instr (.bge 1 2 8) := by
  decide

/-- The offset 2048: bit 11 alone, which is imm_lo bit 0. -/
theorem test_decode_bltu :
    decodeWord (0b0#1 ++ 0b000000#6 ++ 0b00010#5 ++ 0b00001#5 ++ 0b110#3 ++ 0b0000#4 ++ 0b1#1 ++ 0b1100011#7)
      = .instr (.bltu 1 2 2048) := by
  decide

theorem test_decode_bgeu :
    decodeWord (0b0#1 ++ 0b000000#6 ++ 0b00010#5 ++ 0b00001#5 ++ 0b111#3 ++ 0b0100#4 ++ 0b0#1 ++ 0b1100011#7)
      = .instr (.bgeu 1 2 8) := by
  decide

theorem test_decode_lb :
    decodeWord (0b000000000010#12 ++ 0b00001#5 ++ 0b000#3 ++ 0b00011#5 ++ 0b0000011#7) = .instr (.lb 3 1 2) := by
  decide

theorem test_decode_lh :
    decodeWord (0b000000000010#12 ++ 0b00001#5 ++ 0b001#3 ++ 0b00011#5 ++ 0b0000011#7) = .instr (.lh 3 1 2) := by
  decide

theorem test_decode_lw :
    decodeWord (0b111111111100#12 ++ 0b00001#5 ++ 0b010#3 ++ 0b00011#5 ++ 0b0000011#7) = .instr (.lw 3 1 0xFFC) := by
  decide

theorem test_decode_lbu :
    decodeWord (0b011111111111#12 ++ 0b00001#5 ++ 0b100#3 ++ 0b00011#5 ++ 0b0000011#7) = .instr (.lbu 3 1 0x7FF) := by
  decide

theorem test_decode_lhu :
    decodeWord (0b000000000000#12 ++ 0b00001#5 ++ 0b101#3 ++ 0b00011#5 ++ 0b0000011#7) = .instr (.lhu 3 1 0) := by
  decide

theorem test_decode_sb :
    decodeWord (0b0000000#7 ++ 0b00010#5 ++ 0b00001#5 ++ 0b000#3 ++ 0b00011#5 ++ 0b0100011#7)
      = .instr (.sb 2 1 3) := by
  decide

theorem test_decode_sh :
    decodeWord (0b0000001#7 ++ 0b00010#5 ++ 0b00001#5 ++ 0b001#3 ++ 0b00000#5 ++ 0b0100011#7)
      = .instr (.sh 2 1 32) := by
  decide

/-- The offset −4: imm_hi = 0x7F, imm_lo = 0x1C. -/
theorem test_decode_sw :
    decodeWord (0b1111111#7 ++ 0b00010#5 ++ 0b00001#5 ++ 0b010#3 ++ 0b11100#5 ++ 0b0100011#7)
      = .instr (.sw 2 1 (-4)) := by
  decide

theorem test_decode_addi :
    decodeWord (0b111111111101#12 ++ 0b00001#5 ++ 0b000#3 ++ 0b00011#5 ++ 0b0010011#7)
      = .instr (.addi 3 1 0xFFD) := by
  decide

theorem test_decode_slti :
    decodeWord (0b111111111111#12 ++ 0b00001#5 ++ 0b010#3 ++ 0b00011#5 ++ 0b0010011#7)
      = .instr (.slti 3 1 0xFFF) := by
  decide

theorem test_decode_sltiu :
    decodeWord (0b000000000001#12 ++ 0b00001#5 ++ 0b011#3 ++ 0b00011#5 ++ 0b0010011#7)
      = .instr (.sltiu 3 1 1) := by
  decide

theorem test_decode_xori :
    decodeWord (0b111111111111#12 ++ 0b00001#5 ++ 0b100#3 ++ 0b00011#5 ++ 0b0010011#7)
      = .instr (.xori 3 1 0xFFF) := by
  decide

theorem test_decode_ori :
    decodeWord (0b100000000000#12 ++ 0b00001#5 ++ 0b110#3 ++ 0b00011#5 ++ 0b0010011#7)
      = .instr (.ori 3 1 0x800) := by
  decide

theorem test_decode_andi :
    decodeWord (0b111111110000#12 ++ 0b00001#5 ++ 0b111#3 ++ 0b00011#5 ++ 0b0010011#7)
      = .instr (.andi 3 1 0xFF0) := by
  decide

theorem test_decode_slli :
    decodeWord (0b0000000#7 ++ 0b11111#5 ++ 0b00001#5 ++ 0b001#3 ++ 0b00011#5 ++ 0b0010011#7)
      = .instr (.slli 3 1 31) := by
  decide

theorem test_decode_srli :
    decodeWord (0b0000000#7 ++ 0b00001#5 ++ 0b00001#5 ++ 0b101#3 ++ 0b00011#5 ++ 0b0010011#7)
      = .instr (.srli 3 1 1) := by
  decide

theorem test_decode_srai :
    decodeWord (0b0100000#7 ++ 0b11111#5 ++ 0b00001#5 ++ 0b101#3 ++ 0b00011#5 ++ 0b0010011#7)
      = .instr (.srai 3 1 31) := by
  decide

theorem test_decode_add :
    decodeWord (0b0000000#7 ++ 0b00010#5 ++ 0b00001#5 ++ 0b000#3 ++ 0b00011#5 ++ 0b0110011#7)
      = .instr (.add 3 1 2) := by
  decide

theorem test_decode_sub :
    decodeWord (0b0100000#7 ++ 0b00010#5 ++ 0b00001#5 ++ 0b000#3 ++ 0b00011#5 ++ 0b0110011#7)
      = .instr (.sub 3 1 2) := by
  decide

theorem test_decode_sll :
    decodeWord (0b0000000#7 ++ 0b00010#5 ++ 0b00001#5 ++ 0b001#3 ++ 0b00011#5 ++ 0b0110011#7)
      = .instr (.sll 3 1 2) := by
  decide

theorem test_decode_slt :
    decodeWord (0b0000000#7 ++ 0b00010#5 ++ 0b00001#5 ++ 0b010#3 ++ 0b00011#5 ++ 0b0110011#7)
      = .instr (.slt 3 1 2) := by
  decide

theorem test_decode_sltu :
    decodeWord (0b0000000#7 ++ 0b00010#5 ++ 0b00001#5 ++ 0b011#3 ++ 0b00011#5 ++ 0b0110011#7)
      = .instr (.sltu 3 1 2) := by
  decide

theorem test_decode_xor :
    decodeWord (0b0000000#7 ++ 0b00010#5 ++ 0b00001#5 ++ 0b100#3 ++ 0b00011#5 ++ 0b0110011#7)
      = .instr (.xor 3 1 2) := by
  decide

theorem test_decode_srl :
    decodeWord (0b0000000#7 ++ 0b00010#5 ++ 0b00001#5 ++ 0b101#3 ++ 0b00011#5 ++ 0b0110011#7)
      = .instr (.srl 3 1 2) := by
  decide

theorem test_decode_sra :
    decodeWord (0b0100000#7 ++ 0b00010#5 ++ 0b00001#5 ++ 0b101#3 ++ 0b00011#5 ++ 0b0110011#7)
      = .instr (.sra 3 1 2) := by
  decide

theorem test_decode_or :
    decodeWord (0b0000000#7 ++ 0b00010#5 ++ 0b00001#5 ++ 0b110#3 ++ 0b00011#5 ++ 0b0110011#7)
      = .instr (.or 3 1 2) := by
  decide

theorem test_decode_and :
    decodeWord (0b0000000#7 ++ 0b00010#5 ++ 0b00001#5 ++ 0b111#3 ++ 0b00011#5 ++ 0b0110011#7)
      = .instr (.and 3 1 2) := by
  decide

/-- `rdcycle x10` of RV32I: SYSTEM like every word of the opcode. -/
theorem test_decode_system :
    decodeWord (0b110000000000#12 ++ 0b00000#5 ++ 0b010#3 ++ 0b01010#5 ++ 0b1110011#7)
      = .instr (.system 10 2 0 0xC00) := by
  decide

theorem test_decode_op2a :
    decodeWord (0b0000001#7 ++ 0b00010#5 ++ 0b00001#5 ++ 0b111#3 ++ 0b00011#5 ++ 0b0101010#7)
      = .instr (.op2a 3 7 1 2 1) := by
  decide

/-- Unrecognised opcodes (S5): zero, all ones, RV32I `ret`, `auipc`, `fence`. -/
theorem test_decode_illegal :
    decodeWord 0x00000000 = .illegal 0x00000000 ∧ decodeWord 0xFFFFFFFF = .illegal 0xFFFFFFFF ∧
    decodeWord 0x00008067 = .illegal 0x00008067 ∧ decodeWord 0x00000517 = .illegal 0x00000517 ∧
    decodeWord 0x0FF0000F = .illegal 0x0FF0000F := by
  decide

/-- Unassigned sub-encodings (A23, A24, I23, I24, L21, L22, M16, B21). -/
theorem test_decode_unassigned :
    decodeWord 0x022081B3 = .unassigned 0x022081B3 ∧ decodeWord 0x402091B3 = .unassigned 0x402091B3 ∧
    decodeWord 0x40409193 = .unassigned 0x40409193 ∧ decodeWord 0x0240D193 = .unassigned 0x0240D193 ∧
    decodeWord 0x0000B183 = .unassigned 0x0000B183 ∧ decodeWord 0x0000E183 = .unassigned 0x0000E183 ∧
    decodeWord 0x0020B023 = .unassigned 0x0020B023 ∧ decodeWord 0x0020A463 = .unassigned 0x0020A463 := by
  decide

theorem test_decode_truncated : decode [0x13, 0x00, 0x00] = .error .truncated := by decide

theorem test_decode_rest : decode [0x13, 0x00, 0x00, 0x00, 0x2A] = .ok (.addi 0 0 0, [0x2A]) := by decide

/-- No two rows of the table share a word. -/
theorem test_rows_disjoint :
    opcodeTable.Pairwise fun r q => (r.pattern ^^^ q.pattern) &&& r.mask &&& q.mask ≠ 0 := by
  decide +kernel

/-- Words of the encoder at the ends of the offset ranges (S7). -/
theorem test_encode_offsets :
    encode (.sw 2 1 (-2048)) = 0x8020A023 ∧ encode (.sw 2 1 2047) = 0x7E20AFA3 ∧
    encode (.beq 1 2 (-4096)) = 0x80208063 ∧ encode (.beq 1 2 4094) = 0x7E208FE3 ∧
    encode (.jal 1 (-1048576)) = 0x800000EF ∧ encode (.jal 1 1048574) = 0x7FFFF0EF ∧
    encode (.jal 1 699050) = 0x2ABAA0EF := by
  decide

theorem test_decodeTableWord :
    decodeTableWord 32 0x00000033 = some (.add 0 0 0) ∧ decodeTableWord 32 0x00000000 = none ∧
    decodeTableWord 7 0x00000073 = some (.system 0 0 0 0) := by
  decide

/-! ### WellFormed: a term each check refuses -/

theorem test_wellFormed_store :
    (Instr.sb 2 1 2048).wellFormed = false ∧ (Instr.sh 2 1 (-2049)).wellFormed = false ∧
    (Instr.sw 2 1 2048).wellFormed = false := by
  decide

theorem test_wellFormed_branch_range :
    (Instr.beq 1 2 4096).wellFormed = false ∧ (Instr.bne 1 2 (-4098)).wellFormed = false ∧
    (Instr.blt 1 2 4096).wellFormed = false := by
  decide

theorem test_wellFormed_branch_odd :
    (Instr.bge 1 2 7).wellFormed = false ∧ (Instr.bltu 1 2 (-1)).wellFormed = false ∧
    (Instr.bgeu 1 2 1).wellFormed = false := by
  decide

theorem test_wellFormed_jump :
    (Instr.jal 1 1048576).wellFormed = false ∧ (Instr.jal 1 (-1048578)).wellFormed = false ∧
    (Instr.jal 1 3).wellFormed = false := by
  decide

/-! ### The Sign-Extension Utility and memory (S4, S8) -/

theorem test_sext :
    sext 12 0x800 = 0xFFFFF800 ∧ sext 12 0xFFFFF7FF = 0x7FF ∧ sext 13 0x1000 = 0xFFFFF000 ∧ sext 1 1 = 0xFFFFFFFF ∧
    sext 32 0x80000000 = 0x80000000 := by
  decide

theorem test_memory_bytes :
    ((Memory.writeLE [] 0x2000 4 0xA1B2C3D4).readLE 0x2001 4 = 0x00A1B2C3) ∧
    (((Memory.writeLE [] 0x2000 4 0xA1B2C3D4).writeLE 0x2001 2 0x1234).readLE 0x2000 4 = 0xA11234D4) := by
  decide

/-- Writing the value an unlisted address reads as removes the entry. -/
theorem test_memory_canonical : Memory.write [(5, 1), (7, 2)] 5 0 = [(7, 2)] := by decide

/-! ### Register ALU (2.1) -/

theorem test_add_wraps : x3AndPc (.add 3 1 2) [(1, 0xFFFFFFFF), (2, 1)] = some (0, 0x104) := by decide
theorem test_sub_borrows : x3AndPc (.sub 3 1 2) [(1, 0), (2, 1)] = some (0xFFFFFFFF, 0x104) := by decide
theorem test_sll_amount : x3AndPc (.sll 3 1 2) [(1, 3), (2, 0xFFFFFFE1)] = some (6, 0x104) := by decide
theorem test_slt_signed : x3AndPc (.slt 3 1 2) [(1, 0x80000000), (2, 0x7FFFFFFF)] = some (1, 0x104) := by decide
theorem test_sltu_unsigned : x3AndPc (.sltu 3 1 2) [(1, 0xFFFFFFFF), (2, 1)] = some (0, 0x104) := by decide
theorem test_xor : x3AndPc (.xor 3 1 2) [(1, 0xFF00FF00), (2, 0x0FF00FF0)] = some (0xF0F0F0F0, 0x104) := by decide
theorem test_srl_amount : x3AndPc (.srl 3 1 2) [(1, 0x80000000), (2, 0x24)] = some (0x08000000, 0x104) := by decide
theorem test_sra_sign : x3AndPc (.sra 3 1 2) [(1, 0x80000000), (2, 4)] = some (0xF8000000, 0x104) := by decide
theorem test_or : x3AndPc (.or 3 1 2) [(1, 0xFF00FF00), (2, 0x0FF00FF0)] = some (0xFFF0FFF0, 0x104) := by decide
theorem test_and : x3AndPc (.and 3 1 2) [(1, 0xFF00FF00), (2, 0x0FF00FF0)] = some (0x0F000F00, 0x104) := by decide

/-- A source that is also the destination (A22). -/
theorem test_add_source_is_destination : x3AndPc (.add 3 3 3) [(3, 0x80000001)] = some (2, 0x104) := by decide

/-- A write to x0 (A21). -/
theorem test_add_x0 :
    (next? (exec (.add 0 1 2) (machine [(1, 5), (2, 6)]))).map (fun t => (t.reg 0, t.pc)) = some (0, 0x104) := by decide

/-! ### Immediate ALU (2.2) -/

theorem test_addi_negative : x3AndPc (.addi 3 1 0x800) [(1, 0)] = some (0xFFFFF800, 0x104) := by decide
theorem test_slti_negative : x3AndPc (.slti 3 1 0xFFF) [(1, 0xFFFFFFFE)] = some (1, 0x104) := by decide
theorem test_sltiu_extends : x3AndPc (.sltiu 3 1 0xFFF) [(1, 5)] = some (1, 0x104) := by decide
theorem test_xori_not : x3AndPc (.xori 3 1 0xFFF) [(1, 0x12345678)] = some (0xEDCBA987, 0x104) := by decide
theorem test_ori_extends : x3AndPc (.ori 3 1 0x800) [(1, 0xFF)] = some (0xFFFFF8FF, 0x104) := by decide
theorem test_andi_extends : x3AndPc (.andi 3 1 0xFF0) [(1, 0x12345678)] = some (0x12345670, 0x104) := by decide
theorem test_slli_full : x3AndPc (.slli 3 1 31) [(1, 1)] = some (0x80000000, 0x104) := by decide
theorem test_srli_zeros : x3AndPc (.srli 3 1 1) [(1, 0xFFFFFFFF)] = some (0x7FFFFFFF, 0x104) := by decide
theorem test_srai_sign : x3AndPc (.srai 3 1 31) [(1, 0x80000000)] = some (0xFFFFFFFF, 0x104) := by decide

/-! ### Loads and stores (2.3, 2.4) -/

theorem test_lb_sign : loaded (.lb 3 1 0) [(1, 0x2000)] = some 0xFFFFFF80 := by decide
theorem test_lbu_zero : loaded (.lbu 3 1 0) [(1, 0x2000)] = some 0x80 := by decide
theorem test_lh_misaligned : loaded (.lh 3 1 1) [(1, 0x2000)] = some 0x7FFF := by decide
theorem test_lhu_zero : loaded (.lhu 3 1 0) [(1, 0x2000)] = some 0xFF80 := by decide
theorem test_lw_misaligned : loaded (.lw 3 1 1) [(1, 0x2000)] = some 0xEF017FFF := by decide
theorem test_lw_negative : loaded (.lw 3 1 0xFFC) [(1, 0x2008)] = some 0xDEADBEEF := by decide

theorem test_sb : bytes2000 (.sb 2 1 3) (storeMachine 0x2000)
    = some [0x11, 0x11, 0x11, 0xD4, 0x11, 0x11, 0x11, 0x11] := by decide
theorem test_sh_misaligned : bytes2000 (.sh 2 1 3) (storeMachine 0x2000)
    = some [0x11, 0x11, 0x11, 0xD4, 0xC3, 0x11, 0x11, 0x11] := by decide
theorem test_sw_negative : bytes2000 (.sw 2 1 (-4)) (storeMachine 0x2008)
    = some [0x11, 0x11, 0x11, 0x11, 0xD4, 0xC3, 0xB2, 0xA1] := by decide

/-- M11: the store that ends outside memory, through the step. -/
theorem test_sw_out_of_bounds :
    (next? (step (fetching 0x0020A023 [(1, 0x3FFD), (2, 0xA1B2C3D4)]))).map
      (fun t => (t.status, t.cause, t.diag, t.pc, t.byteAt 0x3FFD))
      = some (.halted, .memoryAccessError, 0x3FFD, 0x100, 0) := by decide

/-- L14, L18: loads that end outside memory; no wrap-around in the check. -/
theorem test_lw_out_of_bounds :
    (next? (step (fetching 0xFFC0A183 []))).map (fun t => (t.status, t.cause, t.diag, t.pc))
      = some (.halted, .memoryAccessError, 0xFFFFFFFC, 0x100) := by decide

/-! ### Branches, jump, upper immediate (2.5, 2.6) -/

theorem test_beq_taken : x3AndPc (.beq 1 2 8) [(1, 5), (2, 5)] = some (0, 0x108) := by decide
theorem test_bne_taken : x3AndPc (.bne 1 2 (-8)) [(1, 5), (2, 6)] = some (0, 0xF8) := by decide
theorem test_blt_signed : x3AndPc (.blt 1 2 8) [(1, 0xFFFFFFFF), (2, 1)] = some (0, 0x108) := by decide
theorem test_bge_equal : x3AndPc (.bge 1 2 8) [(1, 5), (2, 5)] = some (0, 0x108) := by decide
theorem test_bltu_unsigned : x3AndPc (.bltu 1 2 8) [(1, 0xFFFFFFFF), (2, 1)] = some (0, 0x104) := by decide
theorem test_bgeu_unsigned : x3AndPc (.bgeu 1 2 8) [(1, 0), (2, 1)] = some (0, 0x104) := by decide
theorem test_jal_links : x3AndPc (.jal 3 (-4)) [] = some (0x104, 0xFC) := by decide
theorem test_lui : x3AndPc (.lui 3 0xDEADC) [] = some (0xDEADC000, 0x104) := by decide

/-! ### SYSTEM, OP2A, faults and run control (2.7, 2.8) -/

theorem test_system_exits :
    (next? (step (fetching 0xC0002573 [(10, 7)]))).map (fun t => (t.status, t.cause, t.pc, t.reg 10))
      = some (.halted, .systemExit, 0x104, 7) := by decide

theorem test_system_advances :
    (next? (exec (.system 10 2 0 0xC00) { machine [(10, 7)] with config := ⟨0x4000, false⟩ })).map
      (fun t => (t.status, t.pc, t.reg 10)) = some (.running, 0x104, 7) := by decide

theorem test_op2a_refused : refusal? (step (fetching 0x0000002A [])) = some .op2aEffectUnspecified := by decide

theorem test_unassigned_refused :
    refusal? (step (fetching 0x022081B3 [])) = some (.unassignedSubEncoding 0x022081B3) := by decide

/-- F2: RV32I `ret`. -/
theorem test_decode_fault :
    (next? (step (fetching 0x00008067 []))).map (fun t => (t.status, t.cause, t.diag, t.pc))
      = some (.halted, .decodeError, 0x00008067, 0x100) := by decide

/-- F4: a fetch that ends outside memory. -/
theorem test_fetch_fault :
    (next? (step { machine [] with pc := 0x3FFE })).map (fun t => (t.status, t.cause, t.diag, t.pc))
      = some (.halted, .memoryAccessError, 0x3FFE, 0x3FFE) := by decide

/-- F5: a fetch at a pc that is not a multiple of 4. -/
theorem test_misaligned_fetch :
    (next? (step { machine [] with pc := 0x102, mem := [(0x100, 0x13), (0x102, 0x93), (0x103, 0x01), (0x104, 0x10)] })).map
      (fun t => (t.reg 3, t.pc)) = some (1, 0x106) := by decide

/-- F7: a budget of 0. -/
theorem test_budget_zero :
    (next? (step { fetching 0x00000013 [] with budgetLeft := .bounded 0 })).map (fun t => (t.status, t.cause, t.pc))
      = some (.halted, .budgetExhausted, 0x100) := by decide

/-- F9: the faulting instruction is not counted. -/
theorem test_fault_not_counted :
    (next? (step { machine [] with budgetLeft := .bounded 1 })).map (fun t => (t.cause, t.budgetLeft))
      = some (.decodeError, .bounded 1) := by decide

/-- Launch from reset, then the first instruction (S1). -/
theorem test_launch_then_step :
    (next? (Host.Core.run core 2 { State.reset with host :=
      [.launch { image := loaderImage 0x1000 [0x00000013], pc := 0x1000,
                 regs := (Vector.replicate 32 0).set 2 0x3FF0, budget := .unbounded }] })).map
      (fun t => (t.status, t.pc, t.reg 2)) = some (.running, 0x1004, 0x3FF0) := by decide

/-- The host interface's word placement runs the word as the first instruction after reset. -/
theorem test_withFetchWord :
    (next? (step (State.reset.withFetchWord 32 0x00500193))).map (fun t => (t.reg 3, t.pc, t.status))
      = some (5, 4, .running) := by decide

/-- The status port, the trace tap and the register dump of a block held in Trace/Prompt. -/
theorem test_ports :
    (next? (step { fetching 0x00000013 [(2, 9)] with host := [.hold] })).map
      (fun t => (t.statusPort, t.traceTap.1, t.traceTap.2.1, t.registerDump.take 3))
      = some ((.running, none), 0x100, 0x00000013, [0, 0, 9]) := by decide

/-! ### Witnesses: a concrete state and operands that meet each statement's hypotheses, at the ends of its ranges -/

/-- A block whose last word-sized access begins at 0x3FFC (log 1). -/
def edge (x1 : Word) : State := machine [(1, x1), (2, 0xA1B2C3D4)]

/-- A Running block at the pc given, memory empty. -/
def atPc (pc : Word) : State := { machine [] with pc := pc }

theorem witness_DecodeInvertsEncode :
    (Instr.jal 1 (-1048576)).wellFormed = true ∧ (Instr.jal 1 1048574).wellFormed = true ∧
    (Instr.beq 1 2 (-4096)).wellFormed = true ∧ (Instr.bgeu 1 2 4094).wellFormed = true ∧
    (Instr.sb 2 1 (-2048)).wellFormed = true ∧ (Instr.sw 2 1 2047).wellFormed = true := by decide

theorem witness_EncodeInvertsDecode : ∃ i, decodeWord 0xFE209CE3 = .instr i := ⟨_, rfl⟩

theorem witness_DecodeFollowsTheOpcodeTable : (⟨"SRAI", 0x40005013, 0xFE00707F⟩ : Row) ∈ opcodeTable := by decide

theorem witness_OffsetsRoundTrip :
    (-2048 : Int) ≤ (-2048 : Word).toInt ∧ (2047 : Word).toInt ≤ 2047 ∧
    (-4096 : Int) ≤ (-4096 : Word).toInt ∧ (-4096 : Word).toInt % 2 = 0 ∧ (4094 : Word).toInt ≤ 4094 ∧
    (-1048576 : Int) ≤ (-1048576 : Word).toInt ∧ (1048574 : Word).toInt ≤ 1048574 ∧
    (1048574 : Word).toInt % 2 = 0 := by decide

theorem witness_ReassemblerBits : (0 : Nat) < 32 ∧ (11 : Nat) < 32 ∧ (31 : Nat) < 32 := by decide

theorem witness_SignExtensionLaws : (1 : Nat) ≤ 1 ∧ (1 : Nat) ≤ 32 ∧ (1 : Nat) ≤ 32 ∧ (32 : Nat) ≤ 32 := by decide

theorem witness_AccessesObeyTheBoundsRule :
    (0x3FFC : Word).toNat + Width.word.bytes ≤ (edge 0).config.memSize ∧
    (edge 0).config.memSize < (0x3FFD : Word).toNat + Width.word.bytes ∧
    (edge 0).config.memSize < (0xFFFFFFFF : Word).toNat + Width.byte.bytes := by decide

theorem witness_ReadsAssembleLittleEndian :
    (0x3FFC : Word).toNat + Width.word.bytes ≤ (edge 0).config.memSize ∧
    (edge 0).config.memSize < (0x3FFD : Word).toNat + Width.word.bytes := by decide

theorem witness_WritesChangeExactlyTheirBytes :
    Memory.wf (storeMachine 0).mem = true ∧ (0x3FFF : Word).toNat + Width.byte.bytes ≤ (storeMachine 0).config.memSize ∧
    (0 : Nat) < Width.byte.bytes ∧ 0x3FFE < (0x3FFF : Word).toNat ∧
    (0x3FFF : Word).toNat + Width.byte.bytes ≤ 0x4000 ∧
    (storeMachine 0).config.memSize < (0x3FFF : Word).toNat + Width.half.bytes := by decide

theorem witness_StoreThenLoadRoundTrip :
    Memory.wf (storeMachine 0).mem = true ∧
    (0x3FFC : Word).toNat + Width.word.bytes ≤ (storeMachine 0).config.memSize ∧
    (storeMachine 0).config.memSize < (0x3FFD : Word).toNat + Width.word.bytes := by decide

theorem witness_RegisterZeroIsHardWired :
    (fetching 0x00000013 []).AtFetch ∧
    ∃ t, step (fetching 0x00000013 []) = .next t ∧ t.faulted = false := ⟨by decide, _, rfl, by decide⟩

theorem witness_OnlyTheDestinationRegisterChanges :
    (∃ t, exec (.add 3 1 2) (machine [(1, 5)]) = .next t) ∧ destination (.add 3 1 2) ≠ some 4 := ⟨⟨_, rfl⟩, by decide⟩

theorem witness_OnlyTheStoredBytesChange :
    (∃ t, exec (.sh 2 1 0) (storeMachine 0x2000) = .next t) ∧
    dataWrite (storeMachine 0x2000) (.sh 2 1 0) = some (0x2000, .half) ∧ 0x1FFF < (0x2000 : Word).toNat ∧
    (0x2000 : Word).toNat + Width.half.bytes ≤ 0x2002 := ⟨⟨_, rfl⟩, by decide, by decide, by decide⟩

theorem witness_BookkeepingIsInvisibleToInstructions :
    (∃ t, exec (.add 3 1 2) (machine []) = .next t) ∧
    exec (.lw 3 1 0) (edge 0x3FFD) = .fault (.memoryAccessError 0x3FFD) ∧
    exec (.op2a 0 0 0 0 0) (machine []) = .refused .op2aEffectUnspecified := ⟨⟨_, rfl⟩, rfl, rfl⟩

theorem witness_AddAndSubResults :
    (0x002081B3 : Word) &&& 0xFE00707F = 0x00000033 ∧
    (0x402081B3 : Word) &&& 0xFE00707F = 0x40000033 := by decide

theorem witness_RegisterShiftResults :
    (0x002091B3 : Word) &&& 0xFE00707F = 0x00001033 ∧
    (0x0020D1B3 : Word) &&& 0xFE00707F = 0x00005033 ∧
    (0x4020D1B3 : Word) &&& 0xFE00707F = 0x40005033 := by decide

theorem witness_RegisterCompareResults :
    (0x0020A1B3 : Word) &&& 0xFE00707F = 0x00002033 ∧
    (0x0020B1B3 : Word) &&& 0xFE00707F = 0x00003033 := by decide

theorem witness_RegisterBitwiseResults :
    (0x0020C1B3 : Word) &&& 0xFE00707F = 0x00004033 ∧
    (0x0020E1B3 : Word) &&& 0xFE00707F = 0x00006033 ∧
    (0x0020F1B3 : Word) &&& 0xFE00707F = 0x00007033 := by decide

theorem witness_AddiResult :
    (0xFFD08193 : Word) &&& 0x0000707F = 0x00000013 := by decide

theorem witness_ImmediateCompareResults :
    (0x0010A193 : Word) &&& 0x0000707F = 0x00002013 ∧
    (0x0010B193 : Word) &&& 0x0000707F = 0x00003013 := by decide

theorem witness_ImmediateBitwiseResults :
    (0x00F0C193 : Word) &&& 0x0000707F = 0x00004013 ∧
    (0x7FF0E193 : Word) &&& 0x0000707F = 0x00006013 ∧
    (0x0FF0F193 : Word) &&& 0x0000707F = 0x00007013 := by decide

theorem witness_ImmediateShiftResults :
    (0x00409193 : Word) &&& 0xFE00707F = 0x00001013 ∧
    (0x0040D193 : Word) &&& 0xFE00707F = 0x00005013 ∧
    (0x4040D193 : Word) &&& 0xFE00707F = 0x40005013 := by decide

theorem witness_EqualityBranchTargets :
    (0x00208463 : Word) &&& 0x0000707F = 0x00000063 ∧
    (0xFE209CE3 : Word) &&& 0x0000707F = 0x00001063 := by decide

theorem witness_SignedBranchTargets :
    (0x0020C463 : Word) &&& 0x0000707F = 0x00004063 ∧
    (0x0020D463 : Word) &&& 0x0000707F = 0x00005063 := by decide

theorem witness_UnsignedBranchTargets :
    (0x0020E463 : Word) &&& 0x0000707F = 0x00006063 ∧
    (0x0020F463 : Word) &&& 0x0000707F = 0x00007063 := by decide

theorem witness_JalLinksAndJumps :
    (0xFFDFF06F : Word) &&& 0x0000007F = 0x0000006F := by decide

theorem witness_LuiResult :
    (0xDEADC2B7 : Word) &&& 0x0000007F = 0x00000037 := by decide

theorem witness_ByteLoadResults :
    (0x00808183 : Word) &&& 0x0000707F = 0x00000003 ∧
    (0x0080C183 : Word) &&& 0x0000707F = 0x00004003 ∧
    (BitVec.ofInt 32 (((edge 0x3FFF).reg 1).toInt + (0 : BitVec 12).toInt)).toNat + 1 ≤ (edge 0x3FFF).config.memSize ∧
    (edge 0x3FFF).config.memSize < (BitVec.ofInt 32 (((edge 0x3FFF).reg 1).toInt + (1 : BitVec 12).toInt)).toNat + 1 := by decide

theorem witness_HalfwordLoadResults :
    (0x00809183 : Word) &&& 0x0000707F = 0x00001003 ∧
    (0x0080D183 : Word) &&& 0x0000707F = 0x00005003 ∧
    (BitVec.ofInt 32 (((edge 0x3FFF).reg 1).toInt + (0xFFF : BitVec 12).toInt)).toNat + 2 ≤ (edge 0x3FFF).config.memSize ∧
    (edge 0x3FFF).config.memSize < (BitVec.ofInt 32 (((edge 0x3FFF).reg 1).toInt + (0 : BitVec 12).toInt)).toNat + 2 := by decide

theorem witness_WordLoadResult :
    (0x0000A183 : Word) &&& 0x0000707F = 0x00002003 ∧
    (BitVec.ofInt 32 (((edge 0x3FFF).reg 1).toInt + (0xFFD : BitVec 12).toInt)).toNat + 4 ≤ (edge 0x3FFF).config.memSize ∧
    (edge 0x3FFF).config.memSize < (BitVec.ofInt 32 (((edge 0x3FFF).reg 1).toInt + (0xFFE : BitVec 12).toInt)).toNat + 4 := by decide

theorem witness_StoreResults :
    (0x00208423 : Word) &&& 0x0000707F = 0x00000023 ∧ (0x00209423 : Word) &&& 0x0000707F = 0x00001023 ∧
    (0xFE20AE23 : Word) &&& 0x0000707F = 0x00002023 ∧ Memory.wf (storeMachine 0x3FFF).mem = true ∧
    ((storeMachine 0x3FFF).storeAddress 1 0).toNat + 1 ≤ (storeMachine 0x3FFF).config.memSize ∧
    ((storeMachine 0x3FFF).storeAddress 1 (-1)).toNat + 2 ≤ (storeMachine 0x3FFF).config.memSize ∧
    ((storeMachine 0x3FFF).storeAddress 1 (-3)).toNat + 4 ≤ (storeMachine 0x3FFF).config.memSize ∧
    (storeMachine 0x3FFF).config.memSize < ((storeMachine 0x3FFF).storeAddress 1 1).toNat + 1 ∧
    (storeMachine 0x3FFF).config.memSize < ((storeMachine 0x3FFF).storeAddress 1 0).toNat + 2 ∧
    (storeMachine 0x3FFF).config.memSize < ((storeMachine 0x3FFF).storeAddress 1 (-2)).toNat + 4 := by
  decide

theorem witness_NextFetchSeesTheStore :
    Memory.wf (atPc 0x3FF8).mem = true ∧
    ({ edge 0x3FFC with pc := 0x3FF8 } : State).storeAddress 1 0 = ({ edge 0x3FFC with pc := 0x3FF8 } : State).pc + 4 ∧
    ((0x3FF8 : Word) + 4).toNat + 4 ≤ (edge 0x3FFC).config.memSize := by
  decide

theorem witness_EvenPcStaysEven :
    (fetching 0x00000463 []).status = .running ∧ (fetching 0x00000463 []).hostAction ≠ .reset ∧
    (fetching 0x00000463 []).pc.toNat % 2 = 0 ∧ ∃ t, step (fetching 0x00000463 []) = .next t :=
  ⟨by decide, by decide, by decide, _, rfl⟩

theorem witness_SystemAdvancesAndExits :
    (machine []).config.systemHalts = true ∧
    ({ machine [] with config := ⟨0x4000, false⟩ } : State).config.systemHalts = false := by decide

theorem witness_EveryWordOfOpcode73IsSystem :
    (0xFFFFFFF3 : Word) &&& 0x0000007F = 0x00000073 ∧
    (fetching 0xFFFFFFF3 []).AtFetch ∧ (0xFFFFFFF3 : Word).toNat % 128 = 0x73 ∧
    (fetching 0xFFFFFFF3 []).memRead 0x100 .word = .ok 0xFFFFFFF3 ∧
    (fetching 0xFFFFFFF3 []).config.systemHalts = true ∧
    ({ fetching 0xFFFFFFF3 [] with config := ⟨0x4000, false⟩ } : State).config.systemHalts = false :=
  ⟨by decide, by decide, by decide, rfl, by decide, by decide⟩

theorem witness_Op2aIsRefused :
    (fetching 0x0000002A []).AtFetch ∧ (0x0000002A : Word).toNat % 128 = 0x2A ∧
    (fetching 0x0000002A []).memRead 0x100 .word = .ok 0x0000002A := ⟨by decide, by decide, rfl⟩

theorem witness_UnassignedSubEncodingsAreRefused :
    (fetching 0x022081B3 []).AtFetch ∧ (fetching 0x022081B3 []).memRead 0x100 .word = .ok 0x022081B3 ∧
    opcodeOf 0x022081B3 ∈ recognisedOpcodes ∧
    ∀ row ∈ opcodeTable, (0x022081B3 : Word) &&& row.mask ≠ row.pattern :=
  ⟨by decide, rfl, by decide, by decide⟩

/-- One instruction that completes, one that raises, one that is refused, each as the bytes at the pc decode. -/
theorem witness_StepRunsTheDecodedInstruction :
    (fetching 0x002081B3 []).AtFetch ∧ (fetching 0x002081B3 []).pc.toNat + 4 ≤ (fetching 0x002081B3 []).config.memSize ∧
    decode [0xB3, 0x81, 0x20, 0x00] = .ok (.add 3 1 2, []) ∧
    (List.range 4).map (fun k => (fetching 0x002081B3 []).byteAt (0x100 + k)) = [0xB3, 0x81, 0x20, 0x00] ∧
    (∃ t, exec (.add 3 1 2) (fetching 0x002081B3 []) = .next t) ∧
    exec (.lw 3 1 0) (fetching 0x0000A183 [(1, 0x3FFD)]) = .fault (.memoryAccessError 0x3FFD) ∧
    exec (.op2a 0 0 0 0 0) (fetching 0x0000002A []) = .refused .op2aEffectUnspecified :=
  ⟨by decide, by decide, by decide, by decide, ⟨_, rfl⟩, rfl, rfl⟩

/-- The last address a fetch reads at, and the first it does not. -/
theorem witness_FetchReadsTheWordAtThePc :
    (atPc 0x3FFC).AtFetch ∧ (atPc 0x3FFC).pc.toNat + 4 ≤ (atPc 0x3FFC).config.memSize ∧
    (∃ t, step (atPc 0x3FFC) = .next t) ∧
    (atPc 0x3FFD).AtFetch ∧ (atPc 0x3FFD).config.memSize < (atPc 0x3FFD).pc.toNat + 4 :=
  ⟨by decide, by decide, ⟨_, rfl⟩, by decide, by decide⟩

theorem witness_UnrecognisedOpcodeHalts :
    (fetching 0x00008067 []).AtFetch ∧ (fetching 0x00008067 []).memRead 0x100 .word = .ok 0x00008067 ∧
    (0x00008067 : Word).toNat % 128 ∉ [0x03, 0x13, 0x23, 0x2A, 0x33, 0x37, 0x63, 0x6F, 0x73] ∧
    (fetching 0x00008063 []).AtFetch ∧ (fetching 0x00008063 []).memRead 0x100 .word = .ok 0x00008063 ∧
    (0x00008063 : Word).toNat % 128 ∈ [0x03, 0x13, 0x23, 0x2A, 0x33, 0x37, 0x63, 0x6F, 0x73] :=
  ⟨by decide, rfl, by decide, by decide, rfl, by decide⟩

theorem witness_FaultsArePrecise :
    (fetching 0x0000A183 [(1, 0x3FFD)]).status = .running ∧
    ∃ t, step (fetching 0x0000A183 [(1, 0x3FFD)]) = .next t ∧ t.faulted = true := ⟨by decide, _, rfl, by decide⟩

/-- Both sides of the equivalence: a fetch fault, and a data fault whose address is not the pc. -/
theorem witness_DiagIsThePcExactlyForFetchFaults :
    (∃ t, step (atPc 0x3FFD) = .next t ∧ t.status = .halted ∧ t.cause = .memoryAccessError ∧ t.diag = t.pc) ∧
    (∃ t, step (fetching 0x0000A183 [(1, 0x3FFD)]) = .next t ∧ t.status = .halted ∧ t.cause = .memoryAccessError ∧
      t.diag ≠ t.pc) :=
  ⟨⟨_, rfl, by decide, by decide, by decide⟩, _, rfl, by decide, by decide, by decide⟩

/-- Each of the five ends occurs. -/
theorem witness_RunsEndInExactlyFiveWays :
    ({ machine [] with host := [.abort] } : State).hostAction = .abort ∧ (machine []).hostAction = .quiet ∧
    HaltsWith .externalAbort { machine [] with host := [.abort] } ∧
    HaltsWith .budgetExhausted { machine [] with budgetLeft := .bounded 0 } ∧
    HaltsWith .memoryAccessError (atPc 0x3FFD) ∧
    HaltsWith .memoryAccessError (fetching 0x0000A183 [(1, 0x3FFD)]) ∧
    HaltsWith .decodeError (machine []) ∧ HaltsWith .systemExit (fetching 0x00000073 []) :=
  ⟨by decide, by decide, ⟨_, rfl, rfl, rfl⟩, ⟨_, rfl, rfl, rfl⟩, ⟨_, rfl, rfl, rfl⟩, ⟨_, rfl, rfl, rfl⟩,
    ⟨_, rfl, rfl, rfl⟩, ⟨_, rfl, rfl, rfl⟩⟩

/-- A spent budget; a faulting step, a completed step of a numeric budget, a completed step of an unbounded one. -/
theorem witness_BudgetCountsCompletedInstructions :
    ({ machine [] with budgetLeft := .bounded 0 } : State).hostAction = .quiet ∧
    (machine []).AtFetch ∧ (∃ t, step (machine []) = .next t ∧ t.faulted = true) ∧
    ({ fetching 0x00000013 [] with budgetLeft := .bounded 1 } : State).AtFetch ∧
    (∃ t, step { fetching 0x00000013 [] with budgetLeft := .bounded 1 } = .next t ∧ t.faulted = false ∧
      t.budgetLeft = .bounded 0) ∧
    (∃ t, step (fetching 0x00000013 []) = .next t ∧ t.faulted = false ∧ t.budgetLeft = .unbounded) :=
  ⟨by decide, by decide, ⟨_, rfl, by decide⟩, by decide, ⟨_, rfl, by decide, by decide⟩, _, rfl, by decide, by decide⟩

/-- A budget that is spent at once, and one that the run spends. -/
theorem witness_BoundedRunsEnd :
    ({ fetching 0x0000006F [] with budgetLeft := .bounded 0 } : State).status = .running ∧
    ({ fetching 0x0000006F [] with budgetLeft := .bounded 2 } : State).phase = .fetch ∧
    ({ fetching 0x0000006F [] with budgetLeft := .bounded 2 } : State).host = [] ∧
    (∃ t : State, Host.Core.run core 3 { fetching 0x0000006F [] with budgetLeft := .bounded 2 } = .next t ∧
      t.isOver = true) ∧
    (∃ r : Refusal, Host.Core.run core 3 { fetching 0x0000002A [] with budgetLeft := .bounded 2 } = .refused r) :=
  ⟨by decide, by decide, by decide, ⟨_, rfl, by decide⟩, _, rfl⟩

theorem witness_HaltedStatesNeverChange :
    ({ machine [] with status := .halted, cause := .systemExit, host := [.abort, .hold] } : State).status = .halted ∧
    HostAction.reset ∉ ({ machine [] with status := .halted, host := [.abort, .hold] } : State).host := by decide

/-- A safe word, and a word of an unrecognised opcode. -/
theorem witness_WellFormedWordsAreNeverRefused :
    (fetching 0x002081B3 []).status = .running ∧ (fetching 0x002081B3 []).phase = .fetch ∧
    (fetching 0x002081B3 []).hostAction = .quiet ∧
    (fetching 0x002081B3 []).memRead 0x100 .word = .ok 0x002081B3 ∧ safeWord 0x002081B3 = true ∧
    (machine []).memRead 0x100 .word = .ok 0 ∧ opcodeOf 0 ∉ recognisedOpcodes :=
  ⟨by decide, by decide, by decide, rfl, by decide, rfl, by decide⟩

theorem witness_ResetFromAnyStatus :
    ({ machine [(1, 5)] with host := [.reset] } : State).hostAction = .reset ∧
    ({ machine [(1, 5)] with status := .halted, host := [.reset] } : State).hostAction = .reset := by decide

/-- An image that ends at the last byte of memory, and an empty one. -/
theorem witness_LaunchState :
    State.reset.status = .idle ∧
    ({ State.reset with host := [.launch ⟨loaderImage 0x3FF8 [1, 2], 0, Vector.replicate 32 7, .bounded 3⟩] } :
      State).hostAction = .launch ⟨loaderImage 0x3FF8 [1, 2], 0, Vector.replicate 32 7, .bounded 3⟩ ∧
    0x3FF8 + 4 * [(1 : Word), 2].length ≤ State.reset.config.memSize ∧
    0 + 4 * ([] : List Word).length ≤ State.reset.config.memSize := by decide

/-- A boundary, and a held pass. -/
theorem witness_AbortActsAtStepBoundariesOnly :
    ({ machine [] with host := [.abort] } : State).phase = .fetch ∧
    ({ machine [] with host := [.abort] } : State).hostAction = .abort ∧
    ({ machine [] with phase := .tracePrompt, ir := 0x13, host := [.abort] } : State).status = .running ∧
    ({ machine [] with phase := .tracePrompt, ir := 0x13, host := [.abort] } : State).hostAction = .abort := by decide

/-- A pass held once and one held three times. -/
theorem witness_HoldChangesNoResult :
    (fetching 0x002081B3 []).budgetLeft.spent = false ∧
    ({ fetching 0x002081B3 [] with host := [.hold] } : State).host = List.replicate (0 + 1) .hold ++ [] ∧
    ({ fetching 0x002081B3 [] with host := [.hold, .hold, .hold, .quiet] } : State).host
      = List.replicate (2 + 1) .hold ++ [.quiet] ∧
    ([] : List HostAction).headD .quiet = .quiet ∧
    (fetching 0x002081B3 []).memRead 0x100 .word = .ok 0x002081B3 ∧ opcodeOf 0x002081B3 ∈ recognisedOpcodes :=
  ⟨by decide, by decide, by decide, by decide, rfl, by decide⟩

theorem witness_StepsKeepTheConfiguration : ∃ t, step (fetching 0x002081B3 []) = .next t := ⟨_, rfl⟩

theorem witness_StepsKeepTheInvariant :
    (fetching 0x002081B3 []).Inv ∧ ∃ t, step (fetching 0x002081B3 []) = .next t := ⟨by decide, _, rfl⟩

/-- Each end under hold at its boundary value, the rest in Trace/Prompt, and both ends of the released pass. -/
theorem witness_RunsEndUnderHold :
    HaltsWith .budgetExhausted { machine [] with host := [.hold], budgetLeft := .bounded 0 } ∧
    HaltsWith .memoryAccessError { atPc 0x3FFD with host := [.hold] } ∧
    HaltsWith .decodeError { atPc 0x3FFC with host := [.hold], budgetLeft := .bounded 1 } ∧
    ({ fetching 0x0000A183 [] with host := [.hold] } : State).hostAction = .hold ∧
    (fetching 0x0000A183 []).memRead 0x100 .word = .ok 0x0000A183 ∧ opcodeOf 0x0000A183 ∈ recognisedOpcodes ∧
    ({ machine [(1, 0x3FFD)] with phase := .tracePrompt, ir := 0x0000A183 } : State).Inv ∧
    HaltsWith .memoryAccessError { machine [(1, 0x3FFD)] with phase := .tracePrompt, ir := 0x0000A183 } ∧
    ({ machine [] with phase := .tracePrompt, ir := 0x73 } : State).Inv ∧
    HaltsWith .systemExit { machine [] with phase := .tracePrompt, ir := 0x73 } :=
  ⟨⟨_, rfl, rfl, rfl⟩, ⟨_, rfl, rfl, rfl⟩, ⟨_, rfl, rfl, rfl⟩, by decide, rfl, by decide, by decide, ⟨_, rfl, rfl, rfl⟩,
    by decide, _, rfl, rfl, rfl⟩

end Sys2Proof.Tests
end

section
/-! What every step keeps: the configuration, and the invariant `State.Inv`. One lemma per operation a step is made of,
then one case per way a step answers a next state (`StepsTo`). -/

namespace Sys2Proof.Machine

theorem Fault.cause_ne_notHalted (f : Fault) : f.cause ≠ .notHalted := by
  cases f <;> simp [Fault.cause]

namespace State

/-! ### Reset and launch, field by field -/

@[simp] theorem applyReset_config (s : State) : s.applyReset.config = s.config := rfl
@[simp] theorem applyReset_regs (s : State) : s.applyReset.regs = resetRegs := rfl
@[simp] theorem applyReset_pc (s : State) : s.applyReset.pc = resetPc := rfl
@[simp] theorem applyReset_mem (s : State) : s.applyReset.mem = [] := rfl
@[simp] theorem applyReset_status (s : State) : s.applyReset.status = .idle := rfl
@[simp] theorem applyReset_cause (s : State) : s.applyReset.cause = .notHalted := rfl
@[simp] theorem applyReset_diag (s : State) : s.applyReset.diag = resetDiag := rfl
@[simp] theorem applyReset_budgetLeft (s : State) : s.applyReset.budgetLeft = resetBudget := rfl
@[simp] theorem applyReset_phase (s : State) : s.applyReset.phase = .fetch := rfl
@[simp] theorem applyReset_ir (s : State) : s.applyReset.ir = resetIr := rfl
@[simp] theorem applyReset_host (s : State) : s.applyReset.host = s.host := rfl
@[simp] theorem applyReset_freeCount (s : State) : s.applyReset.freeCount = s.freeCount := rfl

/-- A launch is taken only with its whole image inside memory (70_reset_and_hazards.md R301 to R306). -/
theorem launch_next {p : Launch} {s t : State} (h : s.launch p = .next t) :
    (∀ c ∈ p.image, c.1 < s.config.memSize) ∧
    t = { s with regs := p.regs.set 0 0, pc := p.pc, mem := Memory.writeCells [] p.image, status := .running,
                 cause := .notHalted, budgetLeft := p.budget, phase := .fetch } := by
  unfold launch at h
  split at h
  case isTrue himg =>
    injection h with h
    exact ⟨by simpa using himg, h.symm⟩
  case isFalse => cases h

end State

/-! ### The configuration -/

theorem Entered.config_eq {s b : State} (he : Entered s b) : b.config = s.config := by
  cases he <;> subst_vars <;> rfl

theorem Entered.status_eq {s b : State} (he : Entered s b) : b.status = s.status := by
  cases he <;> subst_vars <;> rfl

theorem StepsTo.config_eq {s t : State} (h : StepsTo s t) : t.config = s.config := by
  cases h with
  | reset _ ht => rw [ht]; rfl
  | launched p _ _ ht => rw [(State.launch_next ht).2]; rfl
  | rests _ _ ht => rw [ht]; rfl
  | aborted _ _ _ ht => rw [ht]; rfl
  | spent _ _ _ _ ht => rw [ht]; rfl
  | fetchFault _ _ _ _ _ ht => rw [ht]; rfl
  | decodeFault _ _ _ _ _ w _ _ ht => rw [ht]; rfl
  | holds b _ _ he ht => rw [ht]; exact he.config_eq
  | heldIllegal _ _ _ _ ht => rw [ht]; rfl
  | completes b u i _ _ he _ hx ht =>
    obtain ⟨hc, -⟩ := exec_keeps hx
    rw [ht, State.retire_config, hc, he.config_eq]
  | raises b i f _ _ he _ _ ht => rw [ht, State.takeFault_config, he.config_eq]

/-- Settles O57, by the cases of a step. -/
theorem stepsKeepTheConfiguration : Obligations.StepsKeepTheConfiguration :=
  fun _ _ h => (step_cases h).config_eq

/-! ### The invariant, operation by operation -/

namespace State

/-- At a step boundary the clause about a held pass says nothing. -/
theorem inv_of_phase_fetch {s : State} (hp : s.phase = .fetch) (hl : s.config.legal = true) (hm : s.mem.wf = true)
    (hi : s.mem.within s.config.memSize = true) (h0 : s.regs[0] = 0)
    (hs : s.status = .halted ↔ s.cause ≠ .notHalted) : s.Inv :=
  ⟨hl, hm, hi, h0, by simp [hp], hs⟩

theorem Inv.hostTaken {s : State} (h : s.Inv) : s.hostTaken.Inv := h

/-- Reset zeroes registers and memory and leaves the block Idle (10_state.md R43). -/
theorem Inv.applyReset {s : State} (h : s.Inv) : s.applyReset.Inv := by
  obtain ⟨hl, -⟩ := h
  exact inv_of_phase_fetch rfl hl rfl rfl (by simp [resetRegs]) (by simp)

/-- The loader writes inside zeroed memory, and x0 starts as 0 (70_reset_and_hazards.md R302, R304). -/
theorem Inv.launch {s t : State} {p : Launch} (h : s.Inv) (hp : s.launch p = .next t) : t.Inv := by
  obtain ⟨hl, -⟩ := h
  obtain ⟨himg, rfl⟩ := launch_next hp
  exact inv_of_phase_fetch rfl hl (Memory.writeCells_wf _ _ rfl) (Memory.writeCells_within _ _ _ rfl himg) (by simp)
    (by simp)

/-- A halt records its cause (10_state.md R35). -/
theorem Inv.haltWith {s : State} {c : Cause} (h : s.Inv) (hc : c ≠ .notHalted) : (s.haltWith c).Inv := by
  obtain ⟨hl, hm, hi, h0, -⟩ := h
  exact inv_of_phase_fetch rfl hl hm hi h0 (by simp [hc])

/-- A fault records its cause (60_exceptions.md R271). -/
theorem Inv.takeFault {s : State} (h : s.Inv) (f : Fault) : (s.takeFault f).Inv := by
  obtain ⟨hl, hm, hi, h0, -⟩ := h
  exact inv_of_phase_fetch rfl hl hm hi h0 (by simp [f.cause_ne_notHalted])

/-- A fetch at a step boundary latches any word (49_fetch_execute_loop.md R241). -/
theorem Inv.latch {s : State} (h : s.Inv) (hp : s.phase = .fetch) (w : Word) : ({ s with ir := w } : State).Inv := by
  obtain ⟨hl, hm, hi, h0, -, hs⟩ := h
  exact inv_of_phase_fetch hp hl hm hi h0 hs

/-- A pass may rest in Trace/Prompt once its word is decoded and its budget is known not to be spent
(10_state.md R42). -/
theorem Inv.holdPass {s : State} (h : s.Inv) (hr : s.status = .running) (hd : (decodeRecord s.ir).isSome = true)
    (hb : s.budgetLeft.spent = false) : ({ s with phase := .tracePrompt } : State).Inv := by
  obtain ⟨hl, hm, hi, h0, -, hs⟩ := h
  exact ⟨hl, hm, hi, h0, fun _ => ⟨hr, hd, hb⟩, hs⟩

end State

theorem Entered.inv {s b : State} (he : Entered s b) (h : s.Inv) : b.Inv := by
  cases he with
  | fetched _ hp _ _ _ hb => rw [hb]; exact h.hostTaken.latch hp _
  | held _ hb => rw [hb]; exact h.hostTaken

/-- Trace/Prompt is entered with a decoded word and a budget that is not spent (R242, R248). -/
theorem Entered.decoded_and_unspent {s b : State} (he : Entered s b) (h : s.Inv) :
    (decodeRecord b.ir).isSome = true ∧ b.budgetLeft.spent = false := by
  cases he with
  | fetched _ _ hn _ hd hb => exact ⟨hd, by rw [hb]; exact hn⟩
  | held hp hb =>
    obtain ⟨-, -, -, -, hheld, -⟩ := h
    obtain ⟨-, hd, hn⟩ := hheld hp
    rw [hb]
    exact ⟨hd, hn⟩

/-- An instruction stores inside memory or not at all, and keeps the canonical form (20_memory.md R51, R55). -/
theorem Completes.mem_wf_within {i : Instr} {s t : State} (h : Completes i s t) (hm : s.mem.wf = true)
    (hi : s.mem.within s.config.memSize = true) :
    t.mem.wf = true ∧ t.mem.within s.config.memSize = true := by
  cases h with
  | reg rd v p _ _ _ ht => rw [ht]; simp [hm, hi]
  | flow p _ _ _ ht => rw [ht]; exact ⟨hm, hi⟩
  | mem ea n v _ _ hv ht =>
    rw [ht]
    exact ⟨Memory.writeLE_wf _ _ _ _ hm, Memory.writeLE_within _ _ _ _ _ hi hv⟩
  | exit _ _ _ _ _ _ ht => rw [ht]; exact ⟨hm, hi⟩

/-- A completed instruction, retired: x0 is enforced, the pass is over, and a halt it made recorded its cause
(49_fetch_execute_loop.md R246, R248; 47_system.md R222). -/
theorem State.Inv.retire_of_exec {s t : State} {i : Instr} (h : s.Inv) (hx : exec i s = .next t) : t.retire.Inv := by
  obtain ⟨hl, hm, hi, -, -, hs⟩ := h
  obtain ⟨hc, -, -, -, hrun⟩ := exec_keeps hx
  obtain ⟨hm', hi'⟩ := (exec_completes hx).mem_wf_within hm hi
  refine State.inv_of_phase_fetch rfl ?_ hm' ?_ t.retire_regs_zero ?_
  · rw [State.retire_config, hc]; exact hl
  · rw [State.retire_config, hc]; exact hi'
  · rcases hrun with ⟨hst, hca⟩ | ⟨hst, hca, -⟩
    · simpa [hst, hca] using hs
    · simp [hst, hca]

/-! ### The invariant, step by step -/

theorem StepsTo.inv {s t : State} (hst : StepsTo s t) (h : s.Inv) : t.Inv := by
  cases hst with
  | reset _ ht => rw [ht]; exact h.hostTaken.applyReset
  | launched p _ _ ht => exact h.hostTaken.launch ht
  | rests _ _ ht => rw [ht]; exact h.hostTaken
  | aborted _ _ _ ht => rw [ht]; exact h.hostTaken.haltWith (by decide)
  | spent _ _ _ _ ht => rw [ht]; exact h.hostTaken.haltWith (by decide)
  | fetchFault _ _ _ _ _ ht => rw [ht]; exact h.hostTaken.takeFault _
  | decodeFault _ _ hp _ _ w _ _ ht => rw [ht]; exact (h.hostTaken.latch hp w).takeFault _
  | holds b _ hs he ht =>
    obtain ⟨hd, hn⟩ := he.decoded_and_unspent h
    rw [ht]
    exact (he.inv h).holdPass (he.status_eq.trans hs) hd hn
  | heldIllegal _ _ _ _ ht => rw [ht]; exact h.hostTaken.takeFault _
  | completes b u i _ _ he _ hx ht => rw [ht]; exact (he.inv h).retire_of_exec hx
  | raises b i f _ _ he _ _ ht => rw [ht]; exact (he.inv h).takeFault f

/-- Settles O59: each way a step answers a next state keeps the invariant. -/
theorem stepsKeepTheInvariant : Obligations.StepsKeepTheInvariant :=
  fun _ _ h hst => (step_cases hst).inv h

end Sys2Proof.Machine
end

section
/-! The Sign-Extension Utility (00_scope.md R14, R15), bit by bit. -/

namespace Sys2Proof

/-- Above bit N - 1 every bit of `sext_N` is the sign bit. -/
theorem getLsbD_sext {n : Nat} (h1 : 1 ≤ n) (v : Word) {k : Nat} (hk : k < 32) :
    (sext n v).getLsbD k = v.getLsbD (min k (n - 1)) := by
  simp only [sext, BitVec.getLsbD_signExtend, BitVec.msb_eq_getLsbD_last, BitVec.getLsbD_setWidth, hk]
  by_cases hkn : k < n
  · rw [Nat.min_eq_left (by omega)]
    simp [hkn]
  · rw [Nat.min_eq_right (by omega)]
    have hpos : 0 < n := h1
    simp [hkn, hpos]

@[simp] theorem getLsbD_zext (n : Nat) (v : Word) (k : Nat) :
    (zext n v).getLsbD k = (decide (k < n) && v.getLsbD k) := by
  by_cases hk : k < 32
  · simp [zext, hk]
  · simp [BitVec.getLsbD_of_ge _ k (Nat.le_of_not_lt hk)]

/-- The word with only bit N - 1 set is, in N bits, the least signed number. -/
theorem toInt_sext_twoPow {n : Nat} (h1 : 1 ≤ n) (hn : n ≤ 32) :
    (sext n (BitVec.ofNat 32 (2 ^ (n - 1)))).toInt = -((2 : Int) ^ (n - 1)) := by
  have hmin : BitVec.ofNat n (2 ^ (n - 1)) = BitVec.intMin n := by
    apply BitVec.eq_of_toNat_eq
    rw [BitVec.toNat_ofNat, BitVec.toNat_intMin]
  rw [sext, BitVec.toInt_signExtend_of_le hn, BitVec.setWidth_ofNat_of_le hn, hmin, BitVec.toInt_intMin_of_pos h1]

/-- `sext_N` reads only the low N bits, which its own output keeps. -/
theorem sext_zext_sext {n : Nat} (h1 : 1 ≤ n) (v : Word) : sext n (zext n (sext n v)) = sext n v := by
  apply BitVec.eq_of_getLsbD_eq
  intro k hk
  have hlow : min k (n - 1) < n := by omega
  rw [getLsbD_sext h1 _ hk, getLsbD_zext, getLsbD_sext h1 _ (by omega), getLsbD_sext h1 _ hk]
  simp [hlow]

/-- Settles O10, from the bits of `sext_N` and `zext_N`. -/
theorem signExtensionLaws : Obligations.SignExtensionLaws :=
  fun n h1 hn => ⟨fun v _ hk => getLsbD_sext h1 v hk, getLsbD_zext n, toInt_sext_twoPow h1 hn, sext_zext_sext h1⟩

end Sys2Proof
end

section
/-! What an instruction that completes changes (10_state.md R24; 20_memory.md R55, R59), and what a step that completes
one leaves in x0 (10_state.md R23). -/

namespace Sys2Proof.Machine

/-- A completed instruction writes no general register but its destination (10_state.md R24). -/
theorem Completes.reg_of_ne {i : Instr} {s t : State} (h : Completes i s t) {r : Reg} (hr : destination i ≠ some r) :
    t.reg r = s.reg r := by
  cases h with
  | reg rd v p hd _ _ ht =>
    have hne : r ≠ rd := fun e => hr (e ▸ hd)
    rw [ht, State.setPc_reg, State.reg_setReg]
    simp [hne]
  | flow p _ _ _ ht => rw [ht]; rfl
  | mem ea n v _ _ _ ht => rw [ht]; rfl
  | exit _ _ _ _ _ _ ht => rw [ht]; rfl

/-- Settles O16, by the ways an instruction completes. -/
theorem onlyTheDestinationRegisterChanges : Obligations.OnlyTheDestinationRegisterChanges :=
  fun _ _ _ h _ hr => (exec_completes h).reg_of_ne hr

/-- A completed instruction changes no byte outside the group it stores (20_memory.md R55, R59). -/
theorem Completes.byteAt_of_out {i : Instr} {s t : State} (h : Completes i s t) {a : Nat}
    (ha : ∀ ea n, dataWrite s i = some (ea, n) → a < ea.toNat ∨ ea.toNat + n.bytes ≤ a) : t.byteAt a = s.byteAt a := by
  cases h with
  | reg rd v p _ _ _ ht => rw [ht]; simp
  | flow p _ _ _ ht => rw [ht]; rfl
  | mem ea n v _ hw _ ht => rw [ht]; exact Memory.read_writeLE_of_out _ _ _ _ _ (ha ea n hw)
  | exit _ _ _ _ _ _ ht => rw [ht]; rfl

/-- Settles O17, by the ways an instruction completes. -/
theorem onlyTheStoredBytesChange : Obligations.OnlyTheStoredBytesChange :=
  fun _ _ _ h _ ha => (exec_completes h).byteAt_of_out ha

theorem State.faulted_takeFault (s : State) (f : Fault) : (s.takeFault f).faulted = true := by
  cases f <;> rfl

/-- A step that fetches, and ends, ends in a fault or retires a completed instruction
(49_fetch_execute_loop.md R252). -/
theorem StepsTo.faulted_or_retired {s t : State} (h : StepsTo s t) (hf : s.AtFetch) :
    t.faulted = true ∨ ∃ (i : Instr) (b u : State), Entered s b ∧ exec i b = .next u ∧ t = u.retire := by
  obtain ⟨hs, hp, hb, ha⟩ := hf
  cases h with
  | fetchFault _ _ _ _ _ ht => rw [ht]; exact .inl (State.faulted_takeFault _ _)
  | decodeFault _ _ _ _ _ w _ _ ht => rw [ht]; exact .inl (State.faulted_takeFault _ _)
  | raises b i f _ _ _ _ _ ht => rw [ht]; exact .inl (State.faulted_takeFault _ _)
  | completes b u i _ _ he _ hx ht => exact .inr ⟨i, b, u, he, hx, ht⟩
  | reset ha' => simp [ha] at ha'
  | launched _ ha' => simp [ha] at ha'
  | rests _ hs' => exact absurd hs hs'
  | aborted ha' => simp [ha] at ha'
  | spent _ _ _ hb' => simp [hb] at hb'
  | holds _ ha' => simp [ha] at ha'
  | heldIllegal _ _ hp' => simp [hp] at hp'

/-- Settles O15: x0 is guarded at the read and at the write, and a retired instruction has passed
Enforce-Zero-Register. -/
theorem registerZeroIsHardWired : Obligations.RegisterZeroIsHardWired := by
  refine ⟨State.reg_zero, State.setReg_zero, fun s t hf h hnf => ?_⟩
  rcases (step_cases h).faulted_or_retired hf with hfault | ⟨i, b, u, -, -, rfl⟩
  · simp [hnf] at hfault
  · exact u.retire_regs_zero

end Sys2Proof.Machine
end

section
/-! The budget, the cause and `diag` are no operands of an instruction (10_state.md R35, R37): each shared operation of
the meanings ends alike whatever they hold. -/

namespace Sys2Proof.Machine

/-- Other values for the budget, the cause and `diag`, all else as it is. -/
def State.withBookkeeping (b : Budget) (c : Cause) (d : Word) (s : State) : State :=
  { s with budgetLeft := b, cause := c, diag := d }

/-- Two meanings end alike: both complete, with the same registers, pc, memory and status, or both raise the same fault,
or both are refused by the same name. -/
inductive EndAlike : Host.Outcome State Fault Refusal → Host.Outcome State Fault Refusal → Prop where
  | next {t t' : State} (hr : t'.regs = t.regs) (hp : t'.pc = t.pc) (hm : t'.mem = t.mem)
      (hs : t'.status = t.status) : EndAlike (.next t) (.next t')
  | fault (f : Fault) : EndAlike (.fault f) (.fault f)
  | refused (r : Refusal) : EndAlike (.refused r) (.refused r)

section
variable (b : Budget) (c : Cause) (d : Word) (s : State)

theorem State.setReg_withBookkeeping (r : Reg) (v : Word) :
    (s.withBookkeeping b c d).setReg r v = (s.setReg r v).withBookkeeping b c d := by
  unfold setReg
  split <;> rfl

theorem endAlike_withBookkeeping (t : State) : EndAlike (.next t) (.next (t.withBookkeeping b c d)) :=
  .next rfl rfl rfl rfl

theorem writeResult_withBookkeeping (rd : Reg) (v : Word) :
    EndAlike (writeResult rd v s) (writeResult rd v (s.withBookkeeping b c d)) := by
  rw [writeResult, writeResult, State.setReg_withBookkeeping]
  exact endAlike_withBookkeeping b c d _

theorem execJal_withBookkeeping (rd : Reg) (off : Word) :
    EndAlike (execJal rd off s) (execJal rd off (s.withBookkeeping b c d)) := by
  rw [execJal, execJal, State.setReg_withBookkeeping]
  exact endAlike_withBookkeeping b c d _

theorem branch_withBookkeeping (taken : Bool) (off : Word) :
    EndAlike (branch taken off s) (branch taken off (s.withBookkeeping b c d)) := by
  cases taken <;> exact endAlike_withBookkeeping b c d _

theorem load_withBookkeeping (n : Width) (e : Word → Word) (rd rs1 : Reg) (imm : BitVec 12) :
    EndAlike (load n e rd rs1 imm s) (load n e rd rs1 imm (s.withBookkeeping b c d)) := by
  have hread : (s.withBookkeeping b c d).memRead ((s.withBookkeeping b c d).loadAddress rs1 imm) n =
      s.memRead (s.loadAddress rs1 imm) n := rfl
  rw [load, load, hread]
  cases s.memRead (s.loadAddress rs1 imm) n with
  | error f => exact .fault f
  | ok v => exact writeResult_withBookkeeping b c d s rd (e v)

theorem store_withBookkeeping (n : Width) (rs2 rs1 : Reg) (off : Word) :
    EndAlike (store n rs2 rs1 off s) (store n rs2 rs1 off (s.withBookkeeping b c d)) := by
  rcases Nat.lt_or_ge s.config.memSize ((s.storeAddress rs1 off).toNat + n.bytes) with hv | hv
  · rw [store_of_invalid _ _ _ _ _ hv, store_of_invalid _ _ _ _ (s.withBookkeeping b c d) hv]
    exact .fault _
  · rw [store_of_valid _ _ _ _ _ hv, store_of_valid _ _ _ _ (s.withBookkeeping b c d) hv]
    exact .next rfl rfl rfl rfl

theorem execSystem_withBookkeeping (rd : Reg) (f3 : BitVec 3) (rs1 : Reg) (imm : BitVec 12) :
    EndAlike (execSystem rd f3 rs1 imm s) (execSystem rd f3 rs1 imm (s.withBookkeeping b c d)) := by
  have hconfig : (s.withBookkeeping b c d).config = s.config := rfl
  rw [execSystem, execSystem, hconfig]
  cases s.config.systemHalts <;> exact .next rfl rfl rfl rfl

/-- Every instruction ends alike whatever the budget, the cause and `diag` hold (10_state.md R35, R37). -/
theorem exec_withBookkeeping (i : Instr) : EndAlike (exec i s) (exec i (s.withBookkeeping b c d)) := by
  cases i
  case jal => exact execJal_withBookkeeping ..
  case system rd f3 rs1 imm => exact execSystem_withBookkeeping b c d s rd f3 rs1 imm
  case op2a => exact .refused _
  case lb => exact load_withBookkeeping ..
  case lh => exact load_withBookkeeping ..
  case lw => exact load_withBookkeeping ..
  case lbu => exact load_withBookkeeping ..
  case lhu => exact load_withBookkeeping ..
  case sb => exact store_withBookkeeping ..
  case sh => exact store_withBookkeeping ..
  case sw => exact store_withBookkeeping ..
  case beq => exact branch_withBookkeeping ..
  case bne => exact branch_withBookkeeping ..
  case blt => exact branch_withBookkeeping ..
  case bge => exact branch_withBookkeeping ..
  case bltu => exact branch_withBookkeeping ..
  case bgeu => exact branch_withBookkeeping ..
  all_goals exact writeResult_withBookkeeping ..

end

theorem EndAlike.eq_next {t : State} {o : Host.Outcome State Fault Refusal} (h : EndAlike (.next t) o) :
    ∃ t', o = .next t' ∧ t'.regs = t.regs ∧ t'.pc = t.pc ∧ t'.mem = t.mem ∧ t'.status = t.status := by
  cases h with
  | next hr hp hm hs => exact ⟨_, rfl, hr, hp, hm, hs⟩

theorem EndAlike.eq_fault {f : Fault} {o : Host.Outcome State Fault Refusal} (h : EndAlike (.fault f) o) :
    o = .fault f := by
  cases h; rfl

theorem EndAlike.eq_refused {r : Refusal} {o : Host.Outcome State Fault Refusal} (h : EndAlike (.refused r) o) :
    o = .refused r := by
  cases h; rfl

/-- Settles O18: the meaning ends alike from the two states, read off for each of the three outcomes. -/
theorem bookkeepingIsInvisibleToInstructions : Obligations.BookkeepingIsInvisibleToInstructions := by
  intro i s b c d
  have halike : EndAlike (exec i s) (exec i { s with budgetLeft := b, cause := c, diag := d }) :=
    exec_withBookkeeping b c d s i
  exact ⟨fun _ h => (h ▸ halike).eq_next, fun _ h => (h ▸ halike).eq_fault, fun _ h => (h ▸ halike).eq_refused⟩

end Sys2Proof.Machine
end

section
/-! The parity of the pc (10_state.md R28): the reassembled transfer offsets are even (30_encoding.md R96, R97), and
every other step adds 4 or leaves the pc. -/

namespace Sys2Proof

/-- A sign extension keeps the lowest bit. -/
theorem getLsbD_zero_sext {n : Nat} (h1 : 1 ≤ n) (v : Word) : (sext n v).getLsbD 0 = v.getLsbD 0 := by
  rw [getLsbD_sext h1 v (by decide), Nat.zero_min]

/-- Bit 0 of a branch offset is 0 (30_encoding.md R96). -/
theorem getLsbD_zero_branchOffset (hi : BitVec 7) (lo : BitVec 5) : (branchOffset hi lo).getLsbD 0 = false := by
  rw [branchOffset, getLsbD_zero_sext (by decide), BitVec.getLsbD_setWidth, BitVec.getLsbD_append]
  rfl

/-- Bit 0 of a jump offset is 0 (30_encoding.md R97). -/
theorem getLsbD_zero_jumpOffset (imm : BitVec 20) : (jumpOffset imm).getLsbD 0 = false := by
  rw [jumpOffset, getLsbD_zero_sext (by decide), BitVec.getLsbD_setWidth, BitVec.getLsbD_append]
  rfl

/-- A word and the instruction it decodes to have the same opcode (30_encoding.md R100). -/
theorem opcodeOf_encode_of_decodeWord {w : Word} {i : Instr} (h : decodeWord w = .instr i) :
    opcodeOf (encode i) = opcodeOf w := by
  rcases decodeWord_instr_cases h with ⟨e, hs⟩ | ⟨e, rfl⟩ | ⟨e, hs⟩ | ⟨e, hs⟩ | ⟨e, rfl⟩ | ⟨e, hs⟩ | ⟨e, hs⟩ | ⟨e, rfl⟩ |
    ⟨e, rfl⟩ <;> rw [e]
  · rw [(encode_of_selectAluReg hs).2, opcodeOf_packR]
  · exact opcodeOf_packR ..
  · rw [(encode_of_selectLoad hs).2, opcodeOf_packI]
  · rw [(encode_of_selectAluImm hs).2, opcodeOf_packI]
  · exact opcodeOf_packI ..
  · rw [(encode_of_selectStore hs).2, opcodeOf_packS]
  · rw [(encode_of_selectBranch hs).2, opcodeOf_packS]
  · exact opcodeOf_packU ..
  · exact opcodeOf_packU ..

end Sys2Proof

namespace Sys2Proof.Machine

theorem transferOffset_of_selectBranch {f3 : BitVec 3} {off : Word} {rs1 rs2 : Reg} {i : Instr}
    (h : selectBranch f3 off rs1 rs2 = some i) : transferOffset i = some off := by
  unfold selectBranch at h
  split_ifs at h <;> injection h with h <;> rw [← h] <;> rfl

/-- Only branches and JAL have a transfer offset (44_branches.md R190; 45_jumps.md R205). -/
theorem opcode_of_transferOffset {i : Instr} {off : Word} (h : transferOffset i = some off) :
    opcodeOf (encode i) = 0x63 ∨ opcodeOf (encode i) = 0x6F := by
  cases i
  case jal => exact .inr (opcodeOf_packU ..)
  case beq => exact .inl (opcodeOf_packS ..)
  case bne => exact .inl (opcodeOf_packS ..)
  case blt => exact .inl (opcodeOf_packS ..)
  case bge => exact .inl (opcodeOf_packS ..)
  case bltu => exact .inl (opcodeOf_packS ..)
  case bgeu => exact .inl (opcodeOf_packS ..)
  all_goals cases h

/-- Every transfer offset the Immediate Reassembler gives is even (30_encoding.md R96, R97). -/
theorem transferOffset_even {w off : Word} {i : Instr} (h : decodeWord w = .instr i)
    (ho : transferOffset i = some off) : off.getLsbD 0 = false := by
  have hop := opcode_of_transferOffset ho
  rw [opcodeOf_encode_of_decodeWord h] at hop
  rcases decodeWord_instr_cases h with ⟨e, -⟩ | ⟨e, -⟩ | ⟨e, -⟩ | ⟨e, -⟩ | ⟨e, -⟩ | ⟨e, -⟩ | ⟨-, hs⟩ | ⟨e, -⟩ | ⟨-, rfl⟩
  case inr.inr.inr.inr.inr.inr.inl => -- the branches, R96
    rw [transferOffset_of_selectBranch hs] at ho
    injection ho with ho
    exact ho ▸ getLsbD_zero_branchOffset _ _
  case inr.inr.inr.inr.inr.inr.inr.inr => -- JAL, R97
    injection ho with ho
    exact ho ▸ getLsbD_zero_jumpOffset _
  all_goals simp [e] at hop -- no other opcode has a transfer offset

/-- A word is even when its lowest bit is 0. -/
theorem toNat_even_iff (w : Word) : w.toNat % 2 = 0 ↔ w.getLsbD 0 = false := by
  simp [BitVec.getLsbD, Nat.testBit_zero]

/-- The sum modulo 2^32 of two even words is even. -/
theorem toNat_add_even {a b : Word} (ha : a.toNat % 2 = 0) (hb : b.toNat % 2 = 0) : (a + b).toNat % 2 = 0 := by
  rw [BitVec.toNat_add]
  omega

theorem NextPc.even {i : Instr} {s : State} {p w : Word} (h : NextPc i s p) (hi : decodeWord w = .instr i)
    (hpc : s.pc.toNat % 2 = 0) : p.toNat % 2 = 0 := by
  rcases h with rfl | ⟨off, ho, rfl⟩
  · exact toNat_add_even hpc (by decide)
  · exact toNat_add_even hpc ((toNat_even_iff off).2 (transferOffset_even hi ho))

/-- The only pcs a completed instruction can leave (10_state.md R27). -/
theorem Completes.nextPc {i : Instr} {s t : State} (h : Completes i s t) : NextPc i s t.pc := by
  cases h with
  | reg rd v p _ _ hp ht => rw [ht]; exact hp
  | flow p _ _ hp ht => rw [ht]; exact hp
  | mem ea n v _ _ _ ht => rw [ht]; exact .inl rfl
  | exit _ _ _ _ _ _ ht => rw [ht]; exact .inl rfl

theorem Entered.pc_eq {s b : State} (he : Entered s b) : b.pc = s.pc := by
  cases he <;> subst_vars <;> rfl

/-- In a Running block that is not reset only a completed instruction moves the pc. -/
theorem StepsTo.pc_even {s t : State} (h : StepsTo s t) (hs : s.status = .running) (hr : s.hostAction ≠ .reset)
    (hpc : s.pc.toNat % 2 = 0) : t.pc.toNat % 2 = 0 := by
  cases h with
  | reset ha _ => exact absurd ha hr
  | launched p _ hs' _ => simp [hs] at hs'
  | rests _ hs' _ => exact absurd hs hs'
  | aborted _ _ _ ht => rw [ht]; exact hpc
  | spent _ _ _ _ ht => rw [ht]; exact hpc
  | fetchFault _ _ _ _ _ ht => rw [ht]; exact hpc
  | decodeFault _ _ _ _ _ w _ _ ht => rw [ht]; exact hpc
  | holds b _ _ he ht => rw [ht]; exact he.pc_eq ▸ hpc
  | heldIllegal _ _ _ _ ht => rw [ht]; exact hpc
  | completes b u i _ _ he hi hx ht => rw [ht]; exact (exec_completes hx).nextPc.even hi (he.pc_eq ▸ hpc)
  | raises b i f _ _ he _ _ ht => rw [ht]; exact he.pc_eq ▸ hpc

/-- Settles O37, by the cases of a step. -/
theorem evenPcStaysEven : Obligations.EvenPcStaysEven :=
  fun _ _ hs hr hpc h => (step_cases h).pc_even hs hr hpc

end Sys2Proof.Machine
end

section
/-! What reset and launch leave (10_state.md R43, R44; 70_reset_and_hazards.md R302): zeroed registers and memory, and
the loader's words little-endian from their base address on. -/

namespace Sys2Proof.Machine

theorem State.reset_reg (r : Reg) : State.reset.reg r = 0 := by
  simp [State.reg, State.reset, resetRegs]

/-- Settles O52, from the reset values. -/
theorem resetState : Obligations.ResetState :=
  ⟨State.reset_reg, Memory.read_nil, rfl, rfl⟩

/-- Settles O58: at reset the block is at a step boundary with empty memory and no cause recorded. -/
theorem resetSatisfiesTheInvariant : Obligations.ResetSatisfiesTheInvariant :=
  State.inv_of_phase_fetch rfl (by decide) rfl rfl (by simp [State.reset, resetRegs]) (by decide)

/-! ### The loader's image -/

theorem byteOfWord_eq (w : Word) (k : Nat) : byteOfWord w k = (w >>> (8 * k)).setWidth 8 := by
  ext i hi
  simp [byteOfWord]

/-- The loader writes a word as the arbiter does: four bytes, little-endian (20_memory.md R55, R57). -/
theorem writeCells_loaderImage_cons (m : Memory) (base : Nat) (w : Word) (ws : List Word) :
    m.writeCells (loaderImage base (w :: ws)) = (m.writeLE base 4 w).writeCells (loaderImage (base + 4) ws) := by
  simp [loaderImage, Memory.writeCells, Memory.writeLE, byteOfWord_eq, ← BitVec.shiftRight_add]

/-- The loader leaves every byte outside its image. -/
theorem read_loaderImage_of_out (m : Memory) (base : Nat) (ws : List Word) {a : Nat}
    (ha : a < base ∨ base + 4 * ws.length ≤ a) : (m.writeCells (loaderImage base ws)).read a = m.read a := by
  induction ws generalizing m base with
  | nil => rfl
  | cons w ws ih =>
    rw [List.length_cons] at ha
    rw [writeCells_loaderImage_cons, ih _ _ (by omega), Memory.read_writeLE_of_out _ _ _ _ _ (by omega)]

/-- Byte j of word i stands at base + 4i + j (70_reset_and_hazards.md R302). -/
theorem read_loaderImage_in (m : Memory) (base : Nat) (ws : List Word) (hm : m.wf = true) {i j : Nat}
    (hi : i < ws.length) (hj : j < 4) :
    (m.writeCells (loaderImage base ws)).read (base + 4 * i + j) = ws[i].extractLsb' (8 * j) 8 := by
  induction ws generalizing m base i with
  | nil => exact absurd hi (Nat.not_lt_zero i)
  | cons w ws ih =>
    rw [writeCells_loaderImage_cons]
    cases i with
    | zero =>
      rw [read_loaderImage_of_out _ _ _ (by omega)]
      exact Memory.read_writeLE_in _ _ _ _ _ hm hj
    | succ i =>
      have hbase : base + 4 * (i + 1) + j = base + 4 + 4 * i + j := by omega
      rw [hbase, ih _ _ (Memory.writeLE_wf _ _ _ _ hm) (Nat.lt_of_succ_lt_succ hi)]
      rfl

/-- The image ends 4 bytes per word after its base address. -/
theorem loaderImage_lt {base : Nat} {ws : List Word} {c : Host.Cell} (hc : c ∈ loaderImage base ws) :
    c.1 < base + 4 * ws.length := by
  induction ws generalizing base with
  | nil => cases hc
  | cons w ws ih =>
    rw [List.length_cons]
    rcases List.mem_append.1 hc with hw | hws
    · have : c.1 ≤ base + 3 := by
        simp only [List.mem_cons, List.not_mem_nil, or_false] at hw
        rcases hw with rfl | rfl | rfl | rfl <;> simp
      omega
    · have := ih hws
      omega

/-! ### Launch -/

/-- A launch whose whole image is inside memory is taken (70_reset_and_hazards.md R301 to R306). -/
theorem State.launch_of_inside {p : Launch} {s : State} (h : ∀ c ∈ p.image, c.1 < s.config.memSize) :
    s.launch p = .next { s with regs := p.regs.set 0 0, pc := p.pc, mem := Memory.writeCells [] p.image,
                                status := .running, cause := .notHalted, budgetLeft := p.budget, phase := .fetch } := by
  simp only [launch]
  rw [if_pos (by simpa using h)]

theorem step_of_launch {s : State} {p : Launch} (hs : s.status = .idle) (ha : s.hostAction = .launch p) :
    step s = s.hostTaken.launch p := by
  simp [step, stepUnder, ha, hs]

/-- Settles O54: the launch is taken, and its memory is the loader's image on zeroed memory. -/
theorem launchState : Obligations.LaunchState := by
  intro s p base ws hs ha himg hin
  have hlaunch : s.hostTaken.launch p = _ := State.launch_of_inside fun c hc => by
    rw [himg] at hc
    exact Nat.lt_of_lt_of_le (loaderImage_lt hc) hin
  refine ⟨_, (step_of_launch hs ha).trans hlaunch, rfl, rfl, rfl, rfl, rfl, fun r hr => ?_, fun i hi j hj => ?_,
    fun a ha => ?_⟩
  · have hne : (0 : Nat) ≠ r.val := fun e => hr (Fin.ext e.symm)
    simp [State.reg, hr, hne]
  · rw [himg]
    exact read_loaderImage_in [] base ws rfl hi hj
  · rw [himg]
    exact read_loaderImage_of_out [] base ws ha

end Sys2Proof.Machine
end

section
/-! A pass under hold (10_state.md R42; 49_fetch_execute_loop.md R243): how it comes to rest in Trace/Prompt, and that
the release lets it end as it would have ended without the hold. -/

namespace Sys2Proof.Machine

section
variable {s : State} (hs : s.status = .running) (hp : s.phase = .fetch) (ha : s.hostAction = .hold)
include hs hp ha

theorem step_hold_of_spent (hb : s.budgetLeft.spent = true) :
    step s = .next (s.hostTaken.haltWith .budgetExhausted) := by
  rw [step_of_hold hs hp ha, if_pos hb]

theorem step_hold_of_invalid (hb : s.budgetLeft.spent = false) (hv : s.config.memSize < s.pc.toNat + 4) :
    step s = .next (s.hostTaken.takeFault (.memoryAccessError s.pc)) := by
  have hf : s.hostTaken.fetch = .error (.memoryAccessError s.pc) := s.hostTaken.memRead_of_invalid s.pc .word hv
  rw [step_of_hold hs hp ha, hb]
  simp [fetchPhase, hf]

theorem step_hold_of_fetched (hb : s.budgetLeft.spent = false) {w : Word} (hw : s.memRead s.pc .word = .ok w) :
    step s = decodePhase .hold (s.latched w) := by
  have hf : s.hostTaken.fetch = .ok w := hw
  rw [step_of_hold hs hp ha, hb]
  simp [fetchPhase, hf, State.latched]

theorem step_hold_of_unrecognised (hb : s.budgetLeft.spent = false) {w : Word} (hw : s.memRead s.pc .word = .ok w)
    (hr : opcodeOf w ∉ recognisedOpcodes) : step s = .next ((s.latched w).takeFault (.decodeError w)) := by
  have hd : decodeRecord (s.latched w).ir = none :=
    Option.not_isSome_iff_eq_none.1 fun h => hr ((decodeRecord_isSome_iff w).1 h)
  rw [step_hold_of_fetched hs hp ha hb hw]
  simp only [decodePhase, hd]
  rfl

theorem step_hold_of_recognised (hb : s.budgetLeft.spent = false) {w : Word} (hw : s.memRead s.pc .word = .ok w)
    (hr : opcodeOf w ∈ recognisedOpcodes) : step s = .next { s.latched w with phase := .tracePrompt } := by
  obtain ⟨r, hd⟩ := Option.isSome_iff_exists.1 ((decodeRecord_isSome_iff (s.latched w).ir).2 hr)
  rw [step_hold_of_fetched hs hp ha hb hw]
  simp only [decodePhase, hd]
  rfl

end

theorem State.phase_eta {s : State} {p : Phase} (h : s.phase = p) : ({ s with phase := p } : State) = s := by
  rw [← h]

/-- While the host holds, the pass rests as it is. -/
theorem step_of_held {s : State} (hs : s.status = .running) (hp : s.phase = .tracePrompt)
    (ha : s.hostAction = .hold) : step s = .next s.hostTaken := by
  have hstep : step s = .next { s.hostTaken with phase := .tracePrompt } := by
    simp [step, stepUnder, ha, hs, runningStep, hp, promptPhase, HostAction.isHold]
  rw [hstep, State.phase_eta (s := s.hostTaken) hp]

/-- Execute does not see whether the pass was held before it. -/
theorem executePhase_phase (b : State) (p : Phase) : executePhase { b with phase := p } = executePhase b := by
  cases hd : decodeWord b.ir with
  | instr i =>
    rw [executePhase_instr hd, executePhase_instr (b := { b with phase := p }) hd]
    exact settle_exec_phase i b p
  | unassigned w => rw [executePhase_unassigned hd, executePhase_unassigned (b := { b with phase := p }) hd]
  | illegal w =>
    rw [executePhase_illegal hd, executePhase_illegal (b := { b with phase := p }) hd]
    rfl

theorem run_one (s : State) : Host.Core.run core 1 s = step s := by
  cases h : step s with
  | next t => exact run_of_next 0 h
  | fault f => exact absurd h (step_ne_fault s f)
  | refused r => exact run_of_refused 0 h

/-- A pass that rests in Trace/Prompt, held k times more and then released, goes on with Execute. -/
theorem run_of_held (k : Nat) {s : State} {rest : List HostAction} (hs : s.status = .running)
    (hp : s.phase = .tracePrompt) (hh : s.host = List.replicate k .hold ++ rest)
    (hrest : rest.headD .quiet = .quiet) :
    Host.Core.run core (k + 1) s = executePhase { s with host := rest.tail } := by
  induction k generalizing s with
  | zero =>
    have hhost : s.host = rest := hh
    have ha : s.hostAction = .quiet := by rw [State.hostAction, hhost]; exact hrest
    rw [run_one, step_of_released hs hp ha, State.hostTaken, hhost]
  | succ k ih =>
    rw [List.replicate_succ, List.cons_append] at hh
    have ha : s.hostAction = .hold := by rw [State.hostAction, hh]; rfl
    rw [run_of_next _ (step_of_held hs hp ha)]
    exact ih (s := s.hostTaken) hs hp (by rw [State.hostTaken_host, hh]; rfl)

/-- Settles O56: the first hold fetches and rests, the others change nothing, and the release executes what the step
without the hold would have executed. -/
theorem holdChangesNoResult : Obligations.HoldChangesNoResult := by
  intro k s rest w hs hp hb hh hrest hw hr
  rw [List.replicate_succ, List.cons_append] at hh
  have ha : s.hostAction = .hold := by rw [State.hostAction, hh]; rfl
  have hrests := step_hold_of_recognised hs hp ha hb hw hr
  have hreleased := run_of_held k (s := { s.latched w with phase := .tracePrompt }) hs rfl (congrArg List.tail hh) hrest
  rw [run_of_next _ hrests, hreleased, step_of_fetched (s := { s with host := rest }) ⟨hs, hp, hb, hrest⟩ hw]
  exact executePhase_phase (({ s with host := rest } : State).latched w) .tracePrompt

end Sys2Proof.Machine
end

section
/-! How a run ends (49_fetch_execute_loop.md R249): the ends of Execute, and the ends of a pass under hold. -/

namespace Sys2Proof.Machine

/-- The outcome is a state Halted with cause `c`. -/
def EndsWith (c : Cause) (o : Host.Outcome State Fault Refusal) : Prop :=
  ∃ t, o = .next t ∧ t.status = .halted ∧ t.cause = c

theorem haltsWith_iff (c : Cause) (s : State) : HaltsWith c s ↔ EndsWith c (step s) := Iff.rfl

@[simp] theorem endsWith_next (c : Cause) (t : State) : EndsWith c (.next t) ↔ t.status = .halted ∧ t.cause = c := by
  simp [EndsWith]

@[simp] theorem not_endsWith_refused (c : Cause) (r : Refusal) : ¬ EndsWith c (.refused r) := by
  simp [EndsWith]

/-- An executed instruction ends the run by its data access, or by being SYSTEM where SYSTEM_HALTS
(60_exceptions.md R269; 47_system.md R222). -/
theorem settle_exec_endsWith_iff {b : State} (hs : b.status = .running) (i : Instr) (c : Cause) :
    EndsWith c (settle b (exec i b)) ↔
      (c = .memoryAccessError ∧ ∃ ea n, dataAccess b i = some (ea, n) ∧ b.config.memSize < ea.toNat + n.bytes) ∨
      (c = .systemExit ∧ b.config.systemHalts = true ∧ ∃ rd f3 rs1 imm, i = .system rd f3 rs1 imm) := by
  constructor
  · intro h
    cases hx : exec i b with
    | next u =>
      rw [hx, settle_next, endsWith_next] at h
      obtain ⟨hhalt, hcause⟩ := h
      obtain ⟨-, -, -, -, ⟨hst, -⟩ | ⟨-, hca, hsys, hi⟩⟩ := exec_keeps hx
      · simp [hst, hs] at hhalt
      · exact .inr ⟨hcause.symm.trans hca, hsys, hi⟩
    | fault f =>
      rw [hx, settle_fault, endsWith_next] at h
      obtain ⟨-, hcause⟩ := h
      obtain ⟨ea, n, hacc, hv, rfl⟩ := exec_faults hx
      exact .inl ⟨hcause.symm, ea, n, hacc, hv⟩
    | refused r =>
      rw [hx] at h
      exact absurd h (not_endsWith_refused c r)
  · rintro (⟨rfl, ea, n, hacc, hv⟩ | ⟨rfl, hsys, rd, f3, rs1, imm, rfl⟩)
    · rw [exec_of_invalid_access hacc hv, settle_fault, endsWith_next]
      exact ⟨rfl, rfl⟩
    · simp [exec, execSystem, hsys, settle_next]

/-- SYSTEM is the instruction of opcode 0x73, whatever the other bits (47_system.md R220). -/
theorem isSystem_iff_opcode {w : Word} {i : Instr} (h : decodeWord w = .instr i) :
    (∃ rd f3 rs1 imm, i = .system rd f3 rs1 imm) ↔ opcodeOf w = 0x73 := by
  constructor
  · rintro ⟨rd, f3, rs1, imm, rfl⟩
    rw [← opcodeOf_encode_of_decodeWord h]
    exact opcodeOf_packI ..
  · intro ho
    rw [decodeWord_of_system ho] at h
    injection h with h
    exact ⟨_, _, _, _, h.symm⟩

/-- A word that is not of class `illegal` has a recognised opcode (30_encoding.md R88). -/
theorem recognised_of_decodeWord {w : Word} (h : decodeWord w ≠ .illegal w) : opcodeOf w ∈ recognisedOpcodes :=
  not_not.1 fun hn => h ((decodeWord_illegal_iff w).2 hn)

/-- Every way Execute ends the run. -/
theorem executePhase_endsWith_iff {b : State} (hs : b.status = .running) (c : Cause) :
    EndsWith c (executePhase b) ↔
      (c = .memoryAccessError ∧ ∃ i ea n, decodeWord b.ir = .instr i ∧ dataAccess b i = some (ea, n) ∧
        b.config.memSize < ea.toNat + n.bytes) ∨
      (c = .systemExit ∧ b.config.systemHalts = true ∧ opcodeOf b.ir = 0x73) ∨
      (c = .decodeError ∧ opcodeOf b.ir ∉ recognisedOpcodes) := by
  have hsys : opcodeOf b.ir = 0x73 → ∃ i, decodeWord b.ir = .instr i := fun ho => ⟨_, decodeWord_of_system ho⟩
  cases hd : decodeWord b.ir with
  | instr i =>
    have hrec : opcodeOf b.ir ∈ recognisedOpcodes := recognised_of_decodeWord (by simp [hd])
    rw [executePhase_instr hd, settle_exec_endsWith_iff hs, isSystem_iff_opcode hd]
    simp [hrec]
  | unassigned w =>
    have hrec : opcodeOf b.ir ∈ recognisedOpcodes := recognised_of_decodeWord (by simp [hd])
    have hne : opcodeOf b.ir ≠ 0x73#7 := fun ho => by simpa [hd] using hsys ho
    rw [executePhase_unassigned hd]
    simp [hrec, hne]
  | illegal w =>
    obtain ⟨-, rfl⟩ := decodeWord_of_illegal hd
    have hrec : opcodeOf b.ir ∉ recognisedOpcodes := (decodeWord_illegal_iff _).1 hd
    have hne : opcodeOf b.ir ≠ 0x73#7 := fun ho => by simpa [hd] using hsys ho
    rw [executePhase_illegal hd, endsWith_next]
    simp [hrec, hne, Fault.cause, eq_comm (a := c)]

/-- The ends of a step from a boundary under hold (49_fetch_execute_loop.md R241, R242, R248). -/
theorem haltsWith_hold_iff {s : State} (hs : s.status = .running) (hp : s.phase = .fetch) (ha : s.hostAction = .hold)
    (c : Cause) :
    HaltsWith c s ↔
      (c = .budgetExhausted ∧ s.budgetLeft = .bounded 0) ∨
      (c = .memoryAccessError ∧ s.budgetLeft ≠ .bounded 0 ∧ s.config.memSize < s.pc.toNat + 4) ∨
      (c = .decodeError ∧ s.budgetLeft ≠ .bounded 0 ∧
        ∃ w, s.memRead s.pc .word = .ok w ∧ opcodeOf w ∉ recognisedOpcodes) := by
  rw [haltsWith_iff, ne_eq, ← Budget.spent_iff]
  cases hb : s.budgetLeft.spent with
  | true =>
    rw [step_hold_of_spent hs hp ha hb, endsWith_next]
    simp [eq_comm]
  | false =>
    rcases s.memRead_cases s.pc .word with ⟨hv, hm⟩ | ⟨hv, hm⟩
    · have hin : ¬ s.config.memSize < s.pc.toNat + 4 := Nat.not_lt.2 hv
      by_cases hr : opcodeOf (s.mem.readLE s.pc.toNat Width.word.bytes) ∈ recognisedOpcodes
      · rw [step_hold_of_recognised hs hp ha hb hm hr, endsWith_next]
        simp [hin, hm, hr, State.latched, hs]
      · rw [step_hold_of_unrecognised hs hp ha hb hm hr, endsWith_next]
        simp [hin, hm, hr, Fault.cause, eq_comm]
    · rw [step_hold_of_invalid hs hp ha hb hv, endsWith_next]
      have hout : s.config.memSize < s.pc.toNat + 4 := hv
      simp [hout, hm, Fault.cause, eq_comm]

/-- The ends of a held pass that the host releases (49_fetch_execute_loop.md R243, R252). -/
theorem haltsWith_released_iff {s : State} (hi : s.Inv) (hs : s.status = .running) (hp : s.phase = .tracePrompt)
    (ha : s.hostAction = .quiet) (c : Cause) :
    HaltsWith c s ↔
      (c = .memoryAccessError ∧ ∃ i ea n, decodeWord s.ir = .instr i ∧ dataAccess s i = some (ea, n) ∧
        s.config.memSize < ea.toNat + n.bytes) ∨
      (c = .systemExit ∧ s.config.systemHalts = true ∧ opcodeOf s.ir = 0x73) := by
  obtain ⟨-, -, -, -, hheld, -⟩ := hi
  obtain ⟨-, hd, -⟩ := hheld hp
  have hrec : opcodeOf s.hostTaken.ir ∈ recognisedOpcodes := (decodeRecord_isSome_iff s.ir).1 hd
  rw [haltsWith_iff, step_of_released hs hp ha, executePhase_endsWith_iff (b := s.hostTaken) hs]
  simp only [hrec, not_true_eq_false, and_false, or_false]
  rfl

/-- Settles O60, cause by cause from the ends under hold and after the release. -/
theorem runsEndUnderHold : Obligations.RunsEndUnderHold := by
  refine ⟨fun s hs hp ha => ?_, fun s hi hs hp ha => ?_⟩
  · have hends := haltsWith_hold_iff hs hp ha
    refine ⟨by simp [hends], by simp [hends], by simp [hends], fun c h => ?_, fun w hb hw hr => ?_⟩
    · rcases (hends c).1 h with ⟨hc, -⟩ | ⟨hc, -⟩ | ⟨hc, -⟩ <;> simp [hc]
    · have hunspent : s.budgetLeft.spent = false := by simpa [← Budget.spent_iff] using hb
      exact step_hold_of_recognised hs hp ha hunspent hw hr
  · have hends := haltsWith_released_iff hi hs hp ha
    refine ⟨by simp [hends], by simp [hends], fun c h => ?_⟩
    rcases (hends c).1 h with ⟨hc, -⟩ | ⟨hc, -⟩ <;> simp [hc]

end Sys2Proof.Machine
end

section
/-! Little-endian groups of bytes (20_memory.md R54 to R56): the number a group reads as, and what a group written
reads back as. -/

namespace Sys2Proof

/-- `zext_N` is the residue modulo 2^N (00_scope.md R14). -/
theorem toNat_zext (n : Nat) (v : Word) : (zext n v).toNat = v.toNat % 2 ^ n := by
  have hlt : v.toNat % 2 ^ n < 2 ^ 32 := Nat.lt_of_le_of_lt (Nat.mod_le _ _) v.isLt
  rw [zext, BitVec.toNat_setWidth, BitVec.toNat_setWidth, Nat.mod_eq_of_lt hlt]

@[simp] theorem zext_32 (v : Word) : zext 32 v = v := by
  simp [zext]

end Sys2Proof

namespace Sys2Proof.Machine

theorem Width.bytes_le (n : Width) : n.bytes ≤ 4 := by
  cases n <;> decide

namespace Memory

/-- A group of n bytes reads as a number of 8n bits. -/
theorem toNat_readLE_lt (m : Memory) (a n : Nat) : (m.readLE a n).toNat < 2 ^ (8 * n) := by
  apply Nat.lt_pow_two_of_testBit
  intro i hi
  rw [BitVec.testBit_toNat]
  by_cases h32 : i < 32
  · rw [getLsbD_readLE m a n i h32, decide_eq_false (Nat.not_lt.2 hi), Bool.false_and]
  · exact BitVec.getLsbD_of_ge _ _ (Nat.not_lt.1 h32)

/-- The first byte is the lowest digit; the group has at most 4 bytes, so the shift drops none. -/
theorem toNat_readLE_succ (m : Memory) (a : Nat) {n : Nat} (hn : n + 1 ≤ 4) :
    (m.readLE a (n + 1)).toNat = (m.readLE (a + 1) n).toNat * 256 + (m.read a).toNat := by
  have hpow : 2 ^ (8 * n) ≤ 2 ^ 24 := Nat.pow_le_pow_right (by decide) (by omega)
  have hrest := toNat_readLE_lt m (a + 1) n
  have hbyte : (m.read a).toNat < 2 ^ 8 := (m.read a).isLt
  have hfit : (m.readLE (a + 1) n).toNat <<< 8 < 2 ^ 32 := by
    rw [Nat.shiftLeft_eq]
    omega
  rw [readLE, BitVec.toNat_or, BitVec.toNat_shiftLeft, BitVec.toNat_setWidth, Nat.mod_eq_of_lt hfit,
    Nat.mod_eq_of_lt (by omega), ← Nat.shiftLeft_add_eq_or_of_lt hbyte, Nat.shiftLeft_eq]

/-- A group of bytes reads as the number whose base-256 digits they are, lowest first (20_memory.md R54). -/
theorem toNat_readLE (m : Memory) (a : Nat) {n : Nat} (hn : n ≤ 4) :
    (m.readLE a n).toNat = ∑ k ∈ Finset.range n, (m.read (a + k)).toNat * 256 ^ k := by
  induction n generalizing a with
  | zero => rfl
  | succ n ih =>
    have hdigit (k : Nat) :
        (m.read (a + (k + 1))).toNat * 256 ^ (k + 1) = (m.read (a + 1 + k)).toNat * 256 ^ k * 256 := by
      rw [Nat.pow_succ, Nat.mul_assoc, Nat.add_assoc, Nat.add_comm 1 k]
    rw [toNat_readLE_succ m a hn, ih (a + 1) (by omega), Finset.sum_range_succ', Finset.sum_mul]
    simp [hdigit]

/-- A group written reads back as its low 8n bits (20_memory.md R56). -/
theorem readLE_writeLE (m : Memory) (a n : Nat) (v : Word) (h : m.wf = true) :
    (m.writeLE a n v).readLE a n = zext (8 * n) v := by
  apply BitVec.eq_of_getLsbD_eq
  intro i hi
  rw [getLsbD_readLE _ _ _ _ hi, getLsbD_zext]
  by_cases hin : i < 8 * n
  · rw [read_writeLE_in m a n (i / 8) v h (by omega), BitVec.getLsbD_extractLsb', Nat.div_add_mod,
      decide_eq_true (Nat.mod_lt i (by decide)), Bool.true_and]
  · simp [hin]

end Memory
end Sys2Proof.Machine
end

section
/-! The arbiter (20_memory.md R51 to R56, R65, R66; 60_exceptions.md R268): each access inside and outside memory, and
what a fault's `diag` says about the access that failed. -/

namespace Sys2Proof.Machine

/-- Settles O12: a valid read is a group of at most 4 bytes. -/
theorem readsAssembleLittleEndian : Obligations.ReadsAssembleLittleEndian :=
  fun s addr n => ⟨fun hv => ⟨_, s.memRead_of_valid addr n hv, Memory.toNat_readLE s.mem _ n.bytes_le⟩,
    s.memRead_of_invalid addr n⟩

/-- Settles O13, from the bytes inside and outside the group a valid write stores. -/
theorem writesChangeExactlyTheirBytes : Obligations.WritesChangeExactlyTheirBytes :=
  fun s addr n v hm => ⟨fun hv => ⟨_, s.memWrite_of_valid addr n v hv, rfl, Memory.writeLE_wf _ _ _ _ hm,
      fun k hk => Memory.read_writeLE_in _ _ _ k _ hm hk, fun a ha => Memory.read_writeLE_of_out _ _ _ a _ ha⟩,
    s.memWrite_of_invalid addr n v⟩

/-- Settles O14: the group written reads back as its low 8n bits. -/
theorem storeThenLoadRoundTrip : Obligations.StoreThenLoadRoundTrip := by
  refine fun s addr n v hm => ⟨fun hv => ?_, fun hv => ⟨s.memWrite_of_invalid _ _ _ hv, s.memRead_of_invalid _ _ hv⟩⟩
  refine ⟨_, _, s.memWrite_of_valid addr n v hv, State.memRead_of_valid _ addr n hv, ?_⟩
  rw [Memory.readLE_writeLE _ _ _ _ hm, toNat_zext]

/-- Settles O31: the store's group is the one the next fetch reads, and a word keeps all its 32 bits. -/
theorem nextFetchSeesTheStore : Obligations.NextFetchSeesTheStore := by
  intro rs2 rs1 off s hm hea hv
  have hstore : exec (.sw rs2 rs1 off) s = _ := store_of_valid .word rs2 rs1 off s (hea ▸ hv)
  rw [hea] at hstore
  have hback := Memory.readLE_writeLE s.mem (s.pc + 4).toNat Width.word.bytes (s.reg rs2) hm
  refine ⟨_, hstore, ?_⟩
  rw [State.memRead_of_valid]
  · exact congrArg Except.ok (hback.trans (zext_32 _))
  · exact hv

/-- A pass that began at a step boundary enters Trace/Prompt with the word at the pc inside memory
(49_fetch_execute_loop.md R241). -/
theorem Entered.fetch_valid {s b : State} (he : Entered s b) (hp : s.phase = .fetch) :
    s.pc.toNat + 4 ≤ s.config.memSize := by
  cases he with
  | fetched _ _ _ hv _ _ => exact hv
  | held hp' _ => simp [hp] at hp'

/-- An access is no wider than a word, so an instruction that was fetched at an address cannot raise at that address
(60_exceptions.md R268). -/
theorem exec_fault_diag_ne_of_fetch_valid {b : State} {i : Instr} {f : Fault} (hx : exec i b = .fault f)
    (hv : b.pc.toNat + 4 ≤ b.config.memSize) : f.diag ≠ b.pc := by
  obtain ⟨ea, n, -, hout, rfl⟩ := exec_faults hx
  intro hd
  have hea : ea = b.pc := hd
  have hwidth := n.bytes_le
  rw [hea] at hout
  omega

/-- From a step boundary, a MemoryAccessError is the fetch's, with diag = pc, or an executed instruction's, with
another diag (49_fetch_execute_loop.md R241, R252; 60_exceptions.md R268). -/
theorem StepsTo.memoryAccessError_source {s t : State} (h : StepsTo s t) (hs : s.status = .running)
    (hp : s.phase = .fetch) (ht : t.status = .halted) (hc : t.cause = .memoryAccessError) :
    (t.diag = t.pc ∧ s.config.memSize < s.pc.toNat + 4) ∨ (t.diag ≠ t.pc ∧ s.pc.toNat + 4 ≤ s.config.memSize) := by
  cases h with
  | fetchFault _ _ _ _ hv h => rw [h]; exact .inl ⟨rfl, hv⟩
  | raises b i f _ _ he _ hx h =>
    have hv := he.fetch_valid hp
    have hvb : b.pc.toNat + 4 ≤ b.config.memSize := by rw [he.pc_eq, he.config_eq]; exact hv
    have hd : f.diag ≠ b.pc := exec_fault_diag_ne_of_fetch_valid hx hvb
    rw [h]
    exact .inr ⟨hd, hv⟩
  | completes b u i _ _ he _ hx h =>
    rw [h] at ht hc
    obtain ⟨-, -, -, -, ⟨hst, -⟩ | ⟨-, hca, -⟩⟩ := exec_keeps hx
    · simp [hst, he.status_eq, hs] at ht
    · simp [hca] at hc
  | holds b _ _ he h => simp [h, he.status_eq, hs] at ht
  | reset _ h => simp [h] at ht
  | launched p _ hs' _ => simp [hs] at hs'
  | rests _ hs' _ => exact absurd hs hs'
  | aborted _ _ _ h => simp [h] at hc
  | spent _ _ _ _ h => simp [h] at hc
  | decodeFault _ _ _ _ _ w _ _ h => simp [h, Fault.cause] at hc
  | heldIllegal _ _ hp' _ _ => simp [hp] at hp'

/-- Settles O46, from the two sources of a MemoryAccessError. -/
theorem diagIsThePcExactlyForFetchFaults : Obligations.DiagIsThePcExactlyForFetchFaults := by
  intro s t hs hp hst ht hc
  rcases (step_cases hst).memoryAccessError_source hs hp ht hc with ⟨hd, hv⟩ | ⟨hd, hv⟩
  · exact iff_of_true hd hv
  · exact iff_of_false hd (Nat.not_lt.2 hv)

/-- Settles O11, by the two answers of the arbiter. -/
theorem accessesObeyTheBoundsRule : Obligations.AccessesObeyTheBoundsRule :=
  fun s addr n v => ⟨fun hv => ⟨⟨_, s.memRead_of_valid addr n hv⟩, _, s.memWrite_of_valid addr n v hv⟩,
    fun hv => ⟨s.memRead_of_invalid addr n hv, s.memWrite_of_invalid addr n v hv⟩⟩

end Sys2Proof.Machine
end

section
/-! The Immediate Reassembler (30_encoding.md R95 to R97, R99): the bits of an offset, its range, and the bijection of
offsets and fields. -/

namespace Sys2Proof

/-! ### The bits of an offset and of its fields -/

theorem getLsbD_storeOffset (hi : BitVec 7) (lo : BitVec 5) {k : Nat} (hk : k < 32) :
    (storeOffset hi lo).getLsbD k = if k < 5 then lo.getLsbD k else hi.getLsbD (min (k - 5) 6) := by
  rw [storeOffset, getLsbD_sext (by decide) _ hk]
  simp only [BitVec.getLsbD_setWidth, BitVec.getLsbD_append]
  grind

theorem getLsbD_branchOffset (hi : BitVec 7) (lo : BitVec 5) {k : Nat} (hk : k < 32) :
    (branchOffset hi lo).getLsbD k =
      if k = 0 then false else if k < 5 then lo.getLsbD k else if k < 11 then hi.getLsbD (k - 5)
      else if k = 11 then lo.getLsbD 0 else hi.getLsbD 6 := by
  rw [branchOffset, getLsbD_sext (by decide) _ hk]
  simp only [BitVec.getLsbD_setWidth, BitVec.getLsbD_append, BitVec.getLsbD_extractLsb', BitVec.getLsbD_zero]
  interval_cases k <;> simp

theorem getLsbD_jumpOffset (imm : BitVec 20) {k : Nat} (hk : k < 32) :
    (jumpOffset imm).getLsbD k =
      if k = 0 then false else if k < 11 then imm.getLsbD (k + 8) else if k = 11 then imm.getLsbD 8
      else if k < 20 then imm.getLsbD (k - 12) else imm.getLsbD 19 := by
  rw [jumpOffset, getLsbD_sext (by decide) _ hk]
  simp only [BitVec.getLsbD_setWidth, BitVec.getLsbD_append, BitVec.getLsbD_extractLsb', BitVec.getLsbD_zero]
  interval_cases k <;> simp

/-- Settles O9, reassembler by reassembler. -/
theorem reassemblerBits : Obligations.ReassemblerBits :=
  ⟨fun hi lo _ => getLsbD_storeOffset hi lo, fun hi lo _ => getLsbD_branchOffset hi lo,
    fun imm _ => getLsbD_jumpOffset imm⟩

/-! ### Fields of an offset, reassembled -/

theorem getLsbD_branchHi (off : Word) {k : Nat} (hk : k < 7) :
    (branchHi off).getLsbD k = if k < 6 then off.getLsbD (k + 5) else off.getLsbD 12 := by
  rw [branchHi, show BitVec.getLsbD (w := 1 + 6) (off.extractLsb' 12 1 ++ off.extractLsb' 5 6) k = _ from
    BitVec.getLsbD_append]
  interval_cases k <;> simp

theorem getLsbD_branchLo (off : Word) {k : Nat} (hk : k < 5) :
    (branchLo off).getLsbD k = if k = 0 then off.getLsbD 11 else off.getLsbD k := by
  rw [branchLo, show BitVec.getLsbD (w := 4 + 1) (off.extractLsb' 1 4 ++ off.extractLsb' 11 1) k = _ from
    BitVec.getLsbD_append]
  interval_cases k <;> simp

theorem getLsbD_jumpImm (off : Word) {k : Nat} (hk : k < 20) :
    (jumpImm off).getLsbD k =
      if k < 8 then off.getLsbD (k + 12) else if k = 8 then off.getLsbD 11
      else if k < 19 then off.getLsbD (k - 8) else off.getLsbD 20 := by
  rw [jumpImm, show BitVec.getLsbD (w := 1 + 10 + 1 + 8)
    (off.extractLsb' 20 1 ++ off.extractLsb' 1 10 ++ off.extractLsb' 11 1 ++ off.extractLsb' 12 8) k = _ from
    BitVec.getLsbD_append]
  simp only [BitVec.getLsbD_append]
  interval_cases k <;> simp

theorem storeOffset_storeHi_storeLo (off : Word) : storeOffset (storeHi off) (storeLo off) = sext 12 off := by
  apply BitVec.eq_of_getLsbD_eq
  intro k hk
  rw [getLsbD_storeOffset _ _ hk, getLsbD_sext (by decide) _ hk]
  simp only [storeHi, storeLo, BitVec.getLsbD_extractLsb']
  grind

/-- A branch offset's bit 0 has no field, so it has to be 0; likewise a jump offset's. -/
theorem branchOffset_branchHi_branchLo {off : Word} (h0 : off.getLsbD 0 = false) :
    branchOffset (branchHi off) (branchLo off) = sext 13 off := by
  apply BitVec.eq_of_getLsbD_eq
  intro k hk
  rw [getLsbD_branchOffset _ _ hk, getLsbD_sext (by decide) _ hk]
  grind [getLsbD_branchHi, getLsbD_branchLo]

theorem jumpOffset_jumpImm {off : Word} (h0 : off.getLsbD 0 = false) : jumpOffset (jumpImm off) = sext 21 off := by
  apply BitVec.eq_of_getLsbD_eq
  intro k hk
  rw [getLsbD_jumpOffset _ hk, getLsbD_sext (by decide) _ hk]
  grind [getLsbD_jumpImm]

/-! ### Offsets of fields, taken apart -/

@[simp] theorem storeHi_storeOffset (hi : BitVec 7) (lo : BitVec 5) : storeHi (storeOffset hi lo) = hi := by
  apply BitVec.eq_of_getLsbD_eq
  intro k hk
  rw [storeHi, BitVec.getLsbD_extractLsb', getLsbD_storeOffset _ _ (by omega)]
  grind

@[simp] theorem storeLo_storeOffset (hi : BitVec 7) (lo : BitVec 5) : storeLo (storeOffset hi lo) = lo := by
  apply BitVec.eq_of_getLsbD_eq
  intro k hk
  rw [storeLo, BitVec.getLsbD_extractLsb', getLsbD_storeOffset _ _ (by omega)]
  grind

@[simp] theorem branchHi_branchOffset (hi : BitVec 7) (lo : BitVec 5) : branchHi (branchOffset hi lo) = hi := by
  apply BitVec.eq_of_getLsbD_eq
  intro k hk
  rw [getLsbD_branchHi _ hk, getLsbD_branchOffset _ _ (by omega), getLsbD_branchOffset _ _ (by omega)]
  grind

@[simp] theorem branchLo_branchOffset (hi : BitVec 7) (lo : BitVec 5) : branchLo (branchOffset hi lo) = lo := by
  apply BitVec.eq_of_getLsbD_eq
  intro k hk
  rw [getLsbD_branchLo _ hk, getLsbD_branchOffset _ _ (by omega), getLsbD_branchOffset _ _ (by omega)]
  grind

@[simp] theorem jumpImm_jumpOffset (imm : BitVec 20) : jumpImm (jumpOffset imm) = imm := by
  apply BitVec.eq_of_getLsbD_eq
  intro k hk
  rw [getLsbD_jumpImm _ hk]
  iterate 4 rw [getLsbD_jumpOffset _ (by omega)]
  grind

/-! ### Ranges and parity (30_encoding.md R95 to R97) -/

theorem toInt_sext {n : Nat} (hn : n ≤ 32) (v : Word) : (sext n v).toInt = (v.setWidth n).toInt :=
  BitVec.toInt_signExtend_of_le hn

theorem sext_range {n : Nat} (hn : n ≤ 32) (v : Word) :
    -2 ^ (n - 1) ≤ (sext n v).toInt ∧ (sext n v).toInt < 2 ^ (n - 1) := by
  rw [toInt_sext hn]
  exact ⟨BitVec.le_toInt _, BitVec.toInt_lt⟩

/-- `sext_N` leaves a number of N bits as it is. -/
theorem sext_eq_self {n : Nat} (h1 : 1 ≤ n) (hn : n ≤ 32) {v : Word} (hlo : -2 ^ (n - 1) ≤ v.toInt)
    (hhi : v.toInt < 2 ^ (n - 1)) : sext n v = v := by
  have hpow : (2 : Int) ^ n = 2 * 2 ^ (n - 1) := by rw [← pow_succ', Nat.sub_add_cancel h1]
  have hdvd : 2 ^ n ∣ 2 ^ 32 := Nat.pow_dvd_pow 2 hn
  apply BitVec.eq_of_toInt_eq
  calc (sext n v).toInt = (v.toNat : Int).bmod (2 ^ n) := by rw [toInt_sext hn, BitVec.toInt_setWidth]
    _ = v.toInt.bmod (2 ^ n) := by rw [BitVec.toInt_eq_toNat_bmod, Int.bmod_bmod_of_dvd hdvd]
    _ = v.toInt := Int.bmod_eq_of_le (by push_cast; omega) (by push_cast; omega)

theorem toInt_even_iff (w : Word) : w.toInt % 2 = 0 ↔ w.getLsbD 0 = false := by
  rw [← Machine.toNat_even_iff, BitVec.toInt_eq_toNat_cond]
  split <;> omega

theorem storeOffset_range (hi : BitVec 7) (lo : BitVec 5) :
    -2048 ≤ (storeOffset hi lo).toInt ∧ (storeOffset hi lo).toInt ≤ 2047 := by
  obtain ⟨h1, h2⟩ : -2 ^ 11 ≤ (storeOffset hi lo).toInt ∧ (storeOffset hi lo).toInt < 2 ^ 11 :=
    sext_range (n := 12) (by decide) _
  omega

theorem branchOffset_range (hi : BitVec 7) (lo : BitVec 5) :
    -4096 ≤ (branchOffset hi lo).toInt ∧ (branchOffset hi lo).toInt ≤ 4094 ∧ (branchOffset hi lo).toInt % 2 = 0 := by
  have he := (toInt_even_iff _).2 (getLsbD_zero_branchOffset hi lo)
  obtain ⟨h1, h2⟩ : -2 ^ 12 ≤ (branchOffset hi lo).toInt ∧ (branchOffset hi lo).toInt < 2 ^ 12 :=
    sext_range (n := 13) (by decide) _
  omega

theorem jumpOffset_range (imm : BitVec 20) :
    -1048576 ≤ (jumpOffset imm).toInt ∧ (jumpOffset imm).toInt ≤ 1048574 ∧ (jumpOffset imm).toInt % 2 = 0 := by
  have he := (toInt_even_iff _).2 (getLsbD_zero_jumpOffset imm)
  obtain ⟨h1, h2⟩ : -2 ^ 20 ≤ (jumpOffset imm).toInt ∧ (jumpOffset imm).toInt < 2 ^ 20 :=
    sext_range (n := 21) (by decide) _
  omega

/-! ### Offsets of the range and their fields (30_encoding.md R99) -/

theorem storeOffset_of_range {off : Word} (hlo : -2048 ≤ off.toInt) (hhi : off.toInt ≤ 2047) :
    storeOffset (storeHi off) (storeLo off) = off :=
  (storeOffset_storeHi_storeLo off).trans (sext_eq_self (by decide) (by decide) hlo (Int.lt_add_one_of_le hhi))

theorem branchOffset_of_range {off : Word} (hlo : -4096 ≤ off.toInt) (hhi : off.toInt ≤ 4094)
    (he : off.toInt % 2 = 0) : branchOffset (branchHi off) (branchLo off) = off :=
  (branchOffset_branchHi_branchLo ((toInt_even_iff off).1 he)).trans
    (sext_eq_self (by decide) (by decide) hlo (Int.lt_of_le_of_lt hhi (by decide)))

theorem jumpOffset_of_range {off : Word} (hlo : -1048576 ≤ off.toInt) (hhi : off.toInt ≤ 1048574)
    (he : off.toInt % 2 = 0) : jumpOffset (jumpImm off) = off :=
  (jumpOffset_jumpImm ((toInt_even_iff off).1 he)).trans
    (sext_eq_self (by decide) (by decide) hlo (Int.lt_of_le_of_lt hhi (by decide)))

/-- Settles O8: an offset of the range is its own sign extension, and an offset has the bits of its fields. -/
theorem offsetsRoundTrip : Obligations.OffsetsRoundTrip := by
  refine ⟨fun _ => storeOffset_of_range, fun _ => branchOffset_of_range, fun _ => jumpOffset_of_range, ?_, ?_, ?_⟩
  · intro hi lo
    obtain ⟨hlo, hhi⟩ := storeOffset_range hi lo
    exact ⟨hlo, hhi, storeHi_storeOffset hi lo, storeLo_storeOffset hi lo⟩
  · intro hi lo
    obtain ⟨hlo, hhi, he⟩ := branchOffset_range hi lo
    exact ⟨hlo, hhi, he, branchHi_branchOffset hi lo, branchLo_branchOffset hi lo⟩
  · intro imm
    obtain ⟨hlo, hhi, he⟩ := jumpOffset_range imm
    exact ⟨hlo, hhi, he, jumpImm_jumpOffset imm⟩

/-! ### The offset checks of a well-formed instruction -/

theorem storeOffsetOk_iff (off : Word) : storeOffsetOk off = true ↔ -2048 ≤ off.toInt ∧ off.toInt ≤ 2047 := by
  simp [storeOffsetOk]

theorem branchOffsetOk_iff (off : Word) :
    branchOffsetOk off = true ↔ -4096 ≤ off.toInt ∧ off.toInt ≤ 4094 ∧ off.toInt % 2 = 0 := by
  rw [toInt_even_iff]
  simp [branchOffsetOk, and_assoc]

theorem jumpOffsetOk_iff (off : Word) :
    jumpOffsetOk off = true ↔ -1048576 ≤ off.toInt ∧ off.toInt ≤ 1048574 ∧ off.toInt % 2 = 0 := by
  rw [toInt_even_iff]
  simp [jumpOffsetOk, and_assoc]

theorem storeOffset_of_ok {off : Word} (h : storeOffsetOk off = true) :
    storeOffset (storeHi off) (storeLo off) = off := by
  obtain ⟨hlo, hhi⟩ := (storeOffsetOk_iff off).1 h
  exact storeOffset_of_range hlo hhi

theorem branchOffset_of_ok {off : Word} (h : branchOffsetOk off = true) :
    branchOffset (branchHi off) (branchLo off) = off := by
  obtain ⟨hlo, hhi, he⟩ := (branchOffsetOk_iff off).1 h
  exact branchOffset_of_range hlo hhi he

theorem jumpOffset_of_ok {off : Word} (h : jumpOffsetOk off = true) : jumpOffset (jumpImm off) = off := by
  obtain ⟨hlo, hhi, he⟩ := (jumpOffsetOk_iff off).1 h
  exact jumpOffset_of_range hlo hhi he

end Sys2Proof
end

section
/-! The decoder and the encoder are inverse (30_encoding.md R82 to R87, R99, R100). -/

namespace Sys2Proof

/-! ### Decode of encode -/

/-- A store whose offset is in the range decodes from its own fields (30_encoding.md R84, R95). -/
theorem decodeWord_store_of_ok {off : Word} {rs2 rs1 : Reg} {f3 : BitVec 3} {i : Instr} (h : storeOffsetOk off = true)
    (hs : selectStore f3 off rs1 rs2 = some i) :
    decodeWord (packS (storeHi off) rs2 rs1 f3 (storeLo off) 0x23) = .instr i :=
  decodeWord_store _ _ _ _ _ _ (by rw [storeOffset_of_ok h, hs])

/-- A branch whose offset is in the range decodes from its own fields (30_encoding.md R85, R96). -/
theorem decodeWord_branch_of_ok {off : Word} {rs2 rs1 : Reg} {f3 : BitVec 3} {i : Instr}
    (h : branchOffsetOk off = true) (hs : selectBranch f3 off rs1 rs2 = some i) :
    decodeWord (packS (branchHi off) rs2 rs1 f3 (branchLo off) 0x63) = .instr i :=
  decodeWord_branch _ _ _ _ _ _ (by rw [branchOffset_of_ok h, hs])

theorem decodeWord_encode {i : Instr} (h : i.wellFormed = true) : decodeWord (encode i) = .instr i := by
  cases i
  case lui rd imm => exact decodeWord_lui imm rd
  case jal rd off => rw [encode, decodeWord_jal, jumpOffset_of_ok h]
  case beq | bne | blt | bge | bltu | bgeu => exact decodeWord_branch_of_ok h rfl
  case lb | lh | lw | lbu | lhu => exact decodeWord_load _ _ _ _ _ rfl
  case sb | sh | sw => exact decodeWord_store_of_ok h rfl
  case slli | srli | srai => exact decodeWord_aluImm _ _ _ _ _ (by simp [selectAluImm])
  case addi | slti | sltiu | xori | ori | andi => exact decodeWord_aluImm _ _ _ _ _ rfl
  case add | sub | sll | slt | sltu | xor | srl | sra | or | and => exact decodeWord_aluReg _ _ _ _ _ _ rfl
  case system rd f3 rs1 imm => exact decodeWord_system imm rs1 rd f3
  case op2a rd f3 rs1 rs2 f7 => exact decodeWord_op2a f7 rs2 rs1 rd f3

theorem decode_bytesOfWord {w : Word} {i : Instr} (h : decodeWord w = .instr i) :
    decode (bytesOfWord w) = .ok (i, []) := by
  simp only [bytesOfWord, decode, wordOfBytes_bytesOfWord, h]

/-- Settles O2, instruction by instruction. -/
theorem decodeInvertsEncode : Obligations.DecodeInvertsEncode :=
  fun _ h => decode_bytesOfWord (decodeWord_encode h)

/-! ### Encode of decode -/

/-- Settles O3, format by format: the selected instruction encodes to the fields, and the fields make the word. -/
theorem encodeInvertsDecode : Obligations.EncodeInvertsDecode := by
  intro w i h
  rcases decodeWord_instr_cases h with ⟨e, hs⟩ | ⟨e, rfl⟩ | ⟨e, hs⟩ | ⟨e, hs⟩ | ⟨e, rfl⟩ | ⟨e, hs⟩ | ⟨e, hs⟩ | ⟨e, rfl⟩ |
    ⟨e, rfl⟩
  · obtain ⟨hwf, henc⟩ := encode_of_selectAluReg hs
    exact ⟨hwf, by rw [henc, ← e, packR_eta]⟩
  · exact ⟨rfl, by rw [encode, ← e, packR_eta]⟩
  · obtain ⟨hwf, henc⟩ := encode_of_selectLoad hs
    exact ⟨hwf, by rw [henc, ← e, packI_eta]⟩
  · obtain ⟨hwf, henc⟩ := encode_of_selectAluImm hs
    exact ⟨hwf, by rw [henc, ← e, packI_eta]⟩
  · exact ⟨rfl, by rw [encode, ← e, packI_eta]⟩
  · obtain ⟨hwf, henc⟩ := encode_of_selectStore hs
    exact ⟨by rw [hwf, storeOffsetOk_iff]; exact storeOffset_range _ _,
      by rw [henc, storeHi_storeOffset, storeLo_storeOffset, ← e, packS_eta]⟩
  · obtain ⟨hwf, henc⟩ := encode_of_selectBranch hs
    exact ⟨by rw [hwf, branchOffsetOk_iff]; exact branchOffset_range _ _,
      by rw [henc, branchHi_branchOffset, branchLo_branchOffset, ← e, packS_eta]⟩
  · exact ⟨rfl, by rw [encode, ← e, packU_eta]⟩
  · exact ⟨(jumpOffsetOk_iff _).2 (jumpOffset_range _), by rw [encode, jumpImm_jumpOffset, ← e, packU_eta]⟩

end Sys2Proof
end

section
/-! The opcode table (30_encoding.md R100, R101): its rows and the instructions correspond. -/

namespace Sys2Proof.Laws.RowMatch

/-- Every instruction's word matches its row. -/
theorem all : (i : Instr) → Statement i
  | .lui .. => lui ..
  | .jal .. => jal ..
  | .beq .. => beq ..
  | .bne .. => bne ..
  | .blt .. => blt ..
  | .bge .. => bge ..
  | .bltu .. => bltu ..
  | .bgeu .. => bgeu ..
  | .lb .. => lb ..
  | .lh .. => lh ..
  | .lw .. => lw ..
  | .lbu .. => lbu ..
  | .lhu .. => lhu ..
  | .sb .. => sb ..
  | .sh .. => sh ..
  | .sw .. => sw ..
  | .addi .. => addi ..
  | .slti .. => slti ..
  | .sltiu .. => sltiu ..
  | .xori .. => xori ..
  | .ori .. => ori ..
  | .andi .. => andi ..
  | .slli .. => slli ..
  | .srli .. => srli ..
  | .srai .. => srai ..
  | .add .. => add ..
  | .sub .. => sub ..
  | .sll .. => sll ..
  | .slt .. => slt ..
  | .sltu .. => sltu ..
  | .xor .. => xor ..
  | .srl .. => srl ..
  | .sra .. => sra ..
  | .or .. => or ..
  | .and .. => and ..
  | .system .. => system ..
  | .op2a .. => op2a ..

end Sys2Proof.Laws.RowMatch

namespace Sys2Proof

/-! ### From an instruction to its row -/

/-- The word an instruction was decoded from matches a row of its mnemonic. -/
theorem exists_row_of_decodeWord {w : Word} {i : Instr} (h : decodeWord w = .instr i) :
    ∃ row ∈ opcodeTable, row.mnemonic = i.mnemonic ∧ w &&& row.mask = row.pattern := by
  obtain ⟨-, henc⟩ := encodeInvertsDecode w i h
  exact henc ▸ Laws.RowMatch.all i

/-- No two rows have the same mnemonic. -/
theorem row_eq_of_mnemonic_eq :
    ∀ row ∈ opcodeTable, ∀ row' ∈ opcodeTable, row.mnemonic = row'.mnemonic → row = row' := by
  decide

/-! ### From a row to its instruction, opcode by opcode -/

/-- Every word that matches the row decodes to an instruction of its mnemonic. -/
def Row.Decodes (row : Row) : Prop :=
  ∀ w : Word, w &&& row.mask = row.pattern → ∃ i, decodeWord w = .instr i ∧ i.mnemonic = row.mnemonic

theorem rowsFlow_decode : ∀ row ∈ rowsFlow, row.Decodes := by
  simp only [rowsFlow, List.forall_mem_cons]
  refine ⟨fun w h => ?_, fun w h => ?_, ?_, ?_, ?_, ?_, ?_, ?_, nofun⟩
  · exact ⟨_, decodeWord_of_lui ((and_op_eq_iff (by decide)).1 h), rfl⟩
  · exact ⟨_, decodeWord_of_jal ((and_op_eq_iff (by decide)).1 h), rfl⟩
  all_goals -- the six branches
    intro w h
    obtain ⟨hop, h3⟩ := (and_op_funct3_eq_iff (by decide)).1 h
    exact ⟨_, decodeWord_of_branch hop (by rw [h3]; rfl), rfl⟩

theorem rowsMemory_decode : ∀ row ∈ rowsMemory, row.Decodes := by
  simp only [rowsMemory, List.forall_mem_cons]
  refine ⟨?_, ?_, ?_, ?_, ?_, ?_, ?_, ?_, nofun⟩
  all_goals
    intro w h
    obtain ⟨hop, h3⟩ := (and_op_funct3_eq_iff (by decide)).1 h
  iterate 5 -- the loads
    exact ⟨_, decodeWord_of_load hop (by rw [h3]; rfl), rfl⟩
  all_goals -- the stores
    exact ⟨_, decodeWord_of_store hop (by rw [h3]; rfl), rfl⟩

theorem rowsAluImm_decode : ∀ row ∈ rowsAluImm, row.Decodes := by
  simp only [rowsAluImm, List.forall_mem_cons]
  refine ⟨?_, ?_, ?_, ?_, ?_, ?_, ?_, ?_, ?_, nofun⟩
  iterate 6 -- the rows that fix no bit of the immediate
    intro w h
    obtain ⟨hop, h3⟩ := (and_op_funct3_eq_iff (by decide)).1 h
    exact ⟨_, decodeWord_of_aluImm hop (by rw [h3]; rfl), rfl⟩
  all_goals -- the shifts, whose rows fix the top of the immediate
    intro w h
    obtain ⟨hop, h3, h7⟩ := (and_op_funct3_funct7_eq_iff (by decide)).1 h
    exact ⟨_, decodeWord_of_aluImm hop (by rw [h3, selectAluImm, imm12Of_top, h7]; rfl), rfl⟩

theorem rowsAluReg_decode : ∀ row ∈ rowsAluReg, row.Decodes := by
  simp only [rowsAluReg, List.forall_mem_cons]
  refine ⟨?_, ?_, ?_, ?_, ?_, ?_, ?_, ?_, ?_, ?_, nofun⟩
  all_goals
    intro w h
    obtain ⟨hop, h3, h7⟩ := (and_op_funct3_funct7_eq_iff (by decide)).1 h
    exact ⟨_, decodeWord_of_aluReg hop (by rw [h3, h7]; rfl), rfl⟩

theorem rowsSystem_decode : ∀ row ∈ rowsSystem, row.Decodes := by
  simp only [rowsSystem, List.forall_mem_cons]
  refine ⟨fun w h => ?_, fun w h => ?_, nofun⟩
  · exact ⟨_, decodeWord_of_system ((and_op_eq_iff (by decide)).1 h), rfl⟩
  · exact ⟨_, decodeWord_of_op2a ((and_op_eq_iff (by decide)).1 h), rfl⟩

theorem opcodeTable_decodes {row : Row} (h : row ∈ opcodeTable) : row.Decodes := by
  simp only [opcodeTable, List.mem_append] at h
  rcases h with (((h | h) | h) | h) | h
  · exact rowsFlow_decode row h
  · exact rowsMemory_decode row h
  · exact rowsAluImm_decode row h
  · exact rowsAluReg_decode row h
  · exact rowsSystem_decode row h

/-- Settles O6: a row's words decode to its instruction, and an instruction's word matches the only row of its
mnemonic. -/
theorem decodeFollowsTheOpcodeTable : Obligations.DecodeFollowsTheOpcodeTable := by
  refine fun w row hrow => ⟨opcodeTable_decodes hrow w, ?_⟩
  rintro ⟨i, hi, hm⟩
  obtain ⟨row', hrow', hm', hhit⟩ := exists_row_of_decodeWord hi
  rwa [row_eq_of_mnemonic_eq row' hrow' row hrow (hm'.trans hm)] at hhit

/-- A recognised word is unassigned exactly when no instruction is selected. -/
theorem decodeWord_unassigned_iff (w : Word) :
    decodeWord w = .unassigned w ↔ opcodeOf w ∈ recognisedOpcodes ∧ ∀ i, decodeWord w ≠ .instr i := by
  rw [← (decodeWord_illegal_iff w).not_left]
  cases h : decodeWord w with
  | instr i => simp
  | unassigned x => simp [Machine.decodeWord_of_unassigned h]
  | illegal x => simp [(Machine.decodeWord_of_illegal h).2]

/-- Settles O7: the rows a word matches are those of the instruction it decodes to. -/
theorem unassignedExactlyWhenNoRowMatches : Obligations.UnassignedExactlyWhenNoRowMatches := by
  refine ⟨rfl, fun w => ?_⟩
  rw [decodeWord_unassigned_iff]
  refine and_congr_right fun _ => ⟨fun hno row hrow hhit => ?_, fun hno i hi => ?_⟩
  · obtain ⟨i, hi, -⟩ := opcodeTable_decodes hrow w hhit
    exact hno i hi
  · obtain ⟨row, hrow, -, hhit⟩ := exists_row_of_decodeWord hi
    exact hno row hrow hhit

end Sys2Proof
end

section
/-! The fields of a word as quotients and remainders (30_encoding.md R81 to R87), and the opcodes that decode (R88,
R89). -/

namespace Sys2Proof

/-- Bits s to s + n - 1 of a word, as a number. -/
theorem toNat_field (w : Word) (s n : Nat) : (w.extractLsb' s n).toNat = w.toNat / 2 ^ s % 2 ^ n := by
  rw [BitVec.extractLsb'_toNat, Nat.shiftRight_eq_div_pow]

/-- A field that ends at bit 31 is the quotient alone. -/
theorem toNat_topField (w : Word) {s n : Nat} (h : s + n = 32) : (w.extractLsb' s n).toNat = w.toNat / 2 ^ s := by
  rw [toNat_field, Nat.mod_eq_of_lt]
  exact Nat.div_lt_of_lt_mul (by rw [← pow_add, h]; exact w.isLt)

theorem toNat_opcodeOf (w : Word) : (opcodeOf w).toNat = w.toNat % 2 ^ 7 := by
  rw [opcodeOf, toNat_field, pow_zero, Nat.div_one]

/-- Settles O5, field by field. -/
theorem fieldPositions : Obligations.FieldPositions :=
  fun w => ⟨toNat_field w 7 5, toNat_field w 12 3, toNat_field w 15 5, toNat_field w 20 5, toNat_topField w rfl,
    toNat_field w 7 5, toNat_topField w rfl, toNat_topField w rfl, toNat_opcodeOf w⟩

/-- The nine recognised opcodes as values of the low seven bits (30_encoding.md R88). -/
theorem opcodeOf_recognised_iff (w : Word) : opcodeOf w ∈ recognisedOpcodes ↔
    w.toNat % 128 ∈ [0x33, 0x2A, 0x03, 0x13, 0x73, 0x23, 0x63, 0x37, 0x6F] := by
  have hval : (opcodeOf w).toNat = w.toNat % 128 := toNat_opcodeOf w
  rw [← hval, ← List.mem_map_of_injective (f := BitVec.toNat) fun _ _ => BitVec.eq_of_toNat_eq]
  rfl

/-- Settles O4: the opcode alone decides, by its value. -/
theorem decodeIsTotalOnTheNineOpcodes : Obligations.DecodeIsTotalOnTheNineOpcodes := by
  intro w
  rw [decodeRecord_isSome_iff, decodeWord_illegal_iff, opcodeOf_recognised_iff]
  exact ⟨Iff.rfl, Iff.rfl⟩

/-- Settles O1: the decoder runs on the eleven words. -/
theorem decodeOfWrittenWords : Obligations.DecodeOfWrittenWords :=
  ⟨rfl, rfl, rfl, rfl, rfl, rfl, rfl, rfl, rfl, rfl, rfl⟩

end Sys2Proof
end

section
/-! The register-register instructions (40_alu_register.md R120 to R130): which words they are, and what they write. -/

namespace Sys2Proof.Machine

/-! ### What is shared: the words of opcode 0x33, and the write of a result -/

/-- A row that fixes the opcode 0x33, funct3 and funct7 encodes the instruction these select (R120; 30_encoding.md
R100). -/
theorem encodes_aluReg {p : Word} {i : Reg → Reg → Reg → Instr} (hp : p &&& 0xFE00707F#32 = p)
    (hop : opcodeOf p = 0x33)
    (hs : ∀ rd rs1 rs2, selectAluReg (funct3Of p) (hi7Of p) rd rs1 rs2 = some (i rd rs1 rs2)) :
    Encodes p 0xFE00707F fun w => i (rdOf w) (rs1Of w) (rs2Of w) := by
  intro w h
  obtain ⟨hop', h3, h7⟩ := (and_op_funct3_funct7_eq_iff hp).1 h
  exact decodeWord_of_aluReg (hop'.trans hop) (by rw [h3, h7, hs])

/-- Writing a result changes `rd` and the pc only (R120; 10_state.md R24, R27). -/
theorem State.writesOnly_setReg_setPc (s : State) (rd : Reg) (v : Word) :
    s.WritesOnly rd ((s.setReg rd v).setPc (s.pc + 4)) := by
  refine ⟨fun r hr => ?_, fun a => ?_, ?_, rfl⟩
  · simp [State.reg_setReg, hr]
  · simp
  · simp [State.SameRun]

/-- An instruction whose meaning is to write a result yields it (R120). -/
theorem yields_of_exec_eq {i : Instr} {rd : Reg} {r v : Word} {s : State} (h : exec i s = writeResult rd r s)
    (hv : r = v) : Yields i rd v s := by
  refine ⟨_, h.trans (writeResult_eq rd r s), s.writesOnly_setReg_setPc rd r, ?_⟩
  rw [State.setPc_reg, State.reg_setReg, hv]
  by_cases hd : rd = 0 <;> simp [hd]

/-! ### The operations on words -/

/-- The difference modulo 2^32 does not depend on the reading of the operands (R122). -/
theorem sub_eq_ofInt (a b : Word) : a - b = BitVec.ofInt 32 (a.toInt - b.toInt) := by
  apply BitVec.eq_of_toInt_eq
  rw [BitVec.toInt_sub, BitVec.toInt_ofInt]

theorem shiftLeft_eq_ofNat (a : Word) (k : Nat) : a <<< k = BitVec.ofNat 32 (a.toNat * 2 ^ k) := by
  rw [← Nat.shiftLeft_eq]
  rfl

theorem ushiftRight_eq_ofNat (a : Word) (k : Nat) : a >>> k = BitVec.ofNat 32 (a.toNat / 2 ^ k) := by
  rw [← Nat.shiftRight_eq_div_pow, ← BitVec.toNat_ushiftRight, BitVec.ofNat_toNat, BitVec.setWidth_eq]

theorem sshiftRight_eq_ofInt (a : Word) (k : Nat) : a.sshiftRight k = BitVec.ofInt 32 (a.toInt / 2 ^ k) := by
  rw [BitVec.sshiftRight_eq, Int.shiftRight_eq_div_pow, Nat.cast_pow, Nat.cast_ofNat]

/-- The low five bits of a register as a number (R123). -/
theorem State.shiftAmount_eq (s : State) (rs2 : Reg) : s.shiftAmount rs2 = (s.reg rs2).toNat % 32 := by
  simp [State.shiftAmount]

theorem wordOfTest_ltSigned (a b : Word) : wordOfTest (ltSigned a b) = if a.toInt < b.toInt then 1 else 0 := by
  simp [wordOfTest, ltSigned]

theorem wordOfTest_ltUnsigned (a b : Word) : wordOfTest (ltUnsigned a b) = if a.toNat < b.toNat then 1 else 0 := by
  simp [wordOfTest, ltUnsigned]

/-! ### The obligations -/

/-- Settles O19: the model's sum and difference of words are those modulo 2^32. -/
theorem addAndSubResults : Obligations.AddAndSubResults := by
  refine ⟨encodes_aluReg (by decide) rfl fun _ _ _ => rfl, encodes_aluReg (by decide) rfl fun _ _ _ => rfl,
    fun rd rs1 rs2 s => ⟨?_, ?_⟩⟩
  · exact yields_of_exec_eq rfl (BitVec.add_def _ _)
  · exact yields_of_exec_eq rfl (sub_eq_ofInt _ _)

/-- Settles O20: a shift by the amount is the product with, or the floor quotient by, a power of two. -/
theorem registerShiftResults : Obligations.RegisterShiftResults := by
  refine ⟨encodes_aluReg (by decide) rfl fun _ _ _ => rfl, encodes_aluReg (by decide) rfl fun _ _ _ => rfl,
    encodes_aluReg (by decide) rfl fun _ _ _ => rfl, fun rd rs1 rs2 s => ?_⟩
  simp only [← State.shiftAmount_eq]
  refine ⟨?_, ?_, ?_⟩
  · exact yields_of_exec_eq rfl (shiftLeft_eq_ofNat _ _)
  · exact yields_of_exec_eq rfl (ushiftRight_eq_ofNat _ _)
  · exact yields_of_exec_eq rfl (sshiftRight_eq_ofInt _ _)

/-- Settles O21: the result is the word of the order test. -/
theorem registerCompareResults : Obligations.RegisterCompareResults := by
  refine ⟨encodes_aluReg (by decide) rfl fun _ _ _ => rfl, encodes_aluReg (by decide) rfl fun _ _ _ => rfl,
    fun rd rs1 rs2 s => ⟨?_, ?_⟩⟩
  · exact yields_of_exec_eq rfl (wordOfTest_ltSigned _ _)
  · exact yields_of_exec_eq rfl (wordOfTest_ltUnsigned _ _)

/-- Settles O22: the three words are the bitwise operations of the sources. -/
theorem registerBitwiseResults : Obligations.RegisterBitwiseResults := by
  refine ⟨encodes_aluReg (by decide) rfl fun _ _ _ => rfl, encodes_aluReg (by decide) rfl fun _ _ _ => rfl,
    encodes_aluReg (by decide) rfl fun _ _ _ => rfl, fun rd rs1 rs2 s =>
    ⟨s.reg rs1 ^^^ s.reg rs2, s.reg rs1 ||| s.reg rs2, s.reg rs1 &&& s.reg rs2, fun _ => BitVec.getLsbD_xor,
      fun _ => BitVec.getLsbD_or, fun _ => BitVec.getLsbD_and, ?_, ?_, ?_⟩⟩
  all_goals exact yields_of_exec_eq rfl rfl

end Sys2Proof.Machine
end

section
/-! The register-immediate instructions (41_alu_immediate.md R140 to R149): which words they are, and what they write. -/

namespace Sys2Proof

/-! ### The I immediate (30_encoding.md R94) -/

/-- The field is extended from its own width: the zeros that make it a word first have no part in it. -/
theorem iImm_eq_signExtend (imm : BitVec 12) : iImm imm = imm.signExtend 32 := by
  rw [iImm, sext, BitVec.setWidth_setWidth_of_le _ (by decide), BitVec.setWidth_eq]

/-- The immediate is the 32-bit pattern of the field's signed number. -/
theorem iImm_eq_ofInt (imm : BitVec 12) : iImm imm = BitVec.ofInt 32 imm.toInt :=
  iImm_eq_signExtend imm

/-- Bit 11 of the field stands for every higher bit. -/
theorem getLsbD_iImm (imm : BitVec 12) {k : Nat} (hk : k < 32) : (iImm imm).getLsbD k = imm.getLsbD (min k 11) := by
  have hlow : min k 11 < 32 := by omega
  rw [iImm, getLsbD_sext (by decide) _ hk]
  simp [hlow]

theorem toInt_iImm (imm : BitVec 12) : (iImm imm).toInt = imm.toInt := by
  rw [iImm_eq_signExtend, BitVec.toInt_signExtend_of_le (by decide)]

/-- The sum with the immediate is that of the signed numbers modulo 2^32. -/
theorem add_iImm_eq_ofInt (a : Word) (imm : BitVec 12) : a + iImm imm = BitVec.ofInt 32 (a.toInt + imm.toInt) := by
  rw [BitVec.ofInt_add, BitVec.ofInt_toInt, iImm_eq_ofInt]

namespace Machine

/-! ### The words of opcode 0x13 -/

/-- A row that fixes the opcode 0x13 and funct3 encodes the instruction these select, with the whole field as its
immediate (R140; 30_encoding.md R100). -/
theorem encodes_aluImm {p : Word} {i : Reg → Reg → BitVec 12 → Instr} (hp : p &&& 0x0000707F#32 = p)
    (hop : opcodeOf p = 0x13) (hs : ∀ rd rs1 imm, selectAluImm (funct3Of p) imm rd rs1 = some (i rd rs1 imm)) :
    Encodes p 0x0000707F fun w => i (rdOf w) (rs1Of w) (imm12Of w) := by
  intro w h
  obtain ⟨hop', h3⟩ := (and_op_funct3_eq_iff hp).1 h
  exact decodeWord_of_aluImm (hop'.trans hop) (by rw [h3, hs])

/-- A row that fixes also the upper seven bits of the immediate encodes the shift these select, by the lower five
(R147 to R149; 30_encoding.md R100). -/
theorem encodes_shiftImm {p : Word} {i : Reg → Reg → BitVec 5 → Instr} (hp : p &&& 0xFE00707F#32 = p)
    (hop : opcodeOf p = 0x13)
    (hs : ∀ rd rs1 imm, imm.extractLsb' 5 7 = hi7Of p →
      selectAluImm (funct3Of p) imm rd rs1 = some (i rd rs1 (imm.extractLsb' 0 5))) :
    Encodes p 0xFE00707F fun w => i (rdOf w) (rs1Of w) (w.extractLsb' 20 5) := by
  intro w h
  obtain ⟨hop', h3, h7⟩ := (and_op_funct3_funct7_eq_iff hp).1 h
  exact decodeWord_of_aluImm (hop'.trans hop) (by rw [h3, hs _ _ _ ((imm12Of_top w).trans h7), imm12Of_bottom])

/-! ### The obligations -/

/-- Settles O23: the model's sum of words is that of the signed numbers modulo 2^32. -/
theorem addiResult : Obligations.AddiResult :=
  ⟨encodes_aluImm (by decide) rfl fun _ _ _ => rfl,
    fun _ _ _ _ => yields_of_exec_eq rfl (add_iImm_eq_ofInt _ _)⟩

/-- Settles O24: the result is the word of the order test with the extended immediate. -/
theorem immediateCompareResults : Obligations.ImmediateCompareResults := by
  refine ⟨encodes_aluImm (by decide) rfl fun _ _ _ => rfl, encodes_aluImm (by decide) rfl fun _ _ _ => rfl,
    fun rd rs1 imm s => ⟨?_, ?_⟩⟩
  · rw [← toInt_iImm]
    exact yields_of_exec_eq rfl (wordOfTest_ltSigned _ _)
  · rw [← iImm_eq_ofInt]
    exact yields_of_exec_eq rfl (wordOfTest_ltUnsigned _ _)

/-- Settles O25: the three words are the bitwise operations of the source and the extended immediate. -/
theorem immediateBitwiseResults : Obligations.ImmediateBitwiseResults := by
  refine ⟨encodes_aluImm (by decide) rfl fun _ _ _ => rfl, encodes_aluImm (by decide) rfl fun _ _ _ => rfl,
    encodes_aluImm (by decide) rfl fun _ _ _ => rfl, fun rd rs1 imm s =>
    ⟨s.reg rs1 ^^^ iImm imm, s.reg rs1 ||| iImm imm, s.reg rs1 &&& iImm imm, fun k hk => ?_, fun k hk => ?_,
      fun k hk => ?_, yields_of_exec_eq rfl rfl, yields_of_exec_eq rfl rfl, yields_of_exec_eq rfl rfl⟩⟩
  · rw [BitVec.getLsbD_xor, getLsbD_iImm imm hk]
  · rw [BitVec.getLsbD_or, getLsbD_iImm imm hk]
  · rw [BitVec.getLsbD_and, getLsbD_iImm imm hk]

/-- Settles O26: a shift by the amount is the product with, or the floor quotient by, a power of two. -/
theorem immediateShiftResults : Obligations.ImmediateShiftResults := by
  refine ⟨encodes_shiftImm (by decide) rfl fun _ _ _ h7 => ?_, encodes_shiftImm (by decide) rfl fun _ _ _ h7 => ?_,
    encodes_shiftImm (by decide) rfl fun _ _ _ h7 => ?_, fun rd rs1 shamt s => ⟨?_, ?_, ?_⟩⟩
  iterate 3 -- the selection, from the upper bits of the immediate
    rw [selectAluImm, h7]
    rfl
  · exact yields_of_exec_eq rfl (shiftLeft_eq_ofNat _ _)
  · exact yields_of_exec_eq rfl (ushiftRight_eq_ofNat _ _)
  · exact yields_of_exec_eq rfl (sshiftRight_eq_ofInt _ _)

end Machine

end Sys2Proof
end

section
/-! The loads (42_loads.md R160 to R165): which words they are, what they write, and when they raise. -/

namespace Sys2Proof

/-! ### A group of n bits as a word, extended (00_scope.md R14) -/

/-- The sign extension of a group is the 32-bit pattern of its signed number. -/
theorem sext_setWidth {n : Nat} (hn : n ≤ 32) (g : BitVec n) : sext n (g.setWidth 32) = BitVec.ofInt 32 g.toInt := by
  rw [sext, BitVec.setWidth_setWidth_of_le _ hn, BitVec.setWidth_eq]
  rfl

/-- The zero extension of a group is the 32-bit pattern of its unsigned number. -/
theorem zext_setWidth {n : Nat} (hn : n ≤ 32) (g : BitVec n) : zext n (g.setWidth 32) = BitVec.ofNat 32 g.toNat := by
  rw [zext, BitVec.setWidth_setWidth_of_le _ hn, BitVec.setWidth_eq, BitVec.ofNat_toNat]

namespace Machine

/-! ### The bytes of a group, the first one lowest (20_memory.md R54) -/

namespace Memory

/-- One byte more at the low end of a group appends it below the bits of the rest. -/
theorem readLE_succ_eq_append {m : Memory} {a n k : Nat} {g : BitVec k}
    (h : m.readLE (a + 1) n = g.setWidth 32) : m.readLE a (n + 1) = (g ++ m.read a).setWidth 32 := by
  apply BitVec.eq_of_getLsbD_eq
  intro i hi
  rw [readLE, h]
  by_cases hlow : i < 8
  · simp [hi, hlow, BitVec.getLsbD_append]
  · have hbyte : (m.read a).getLsbD i = false := BitVec.getLsbD_of_ge _ _ (by omega)
    simp [hi, hlow, hbyte, BitVec.getLsbD_append]

theorem readLE_byte (m : Memory) (a : Nat) : m.readLE a Width.byte.bytes = (m.read a).setWidth 32 := by
  simp [Width.bytes, readLE]

theorem readLE_half (m : Memory) (a : Nat) :
    m.readLE a Width.half.bytes = (m.read (a + 1) ++ m.read a).setWidth 32 :=
  readLE_succ_eq_append (m.readLE_byte (a + 1))

theorem readLE_word (m : Memory) (a : Nat) :
    m.readLE a Width.word.bytes = m.read (a + 3) ++ m.read (a + 2) ++ m.read (a + 1) ++ m.read a := by
  have hthree : m.readLE (a + 1) 3 = (m.read (a + 3) ++ m.read (a + 2) ++ m.read (a + 1)).setWidth 32 :=
    readLE_succ_eq_append (m.readLE_half (a + 2))
  exact (readLE_succ_eq_append hthree).trans (BitVec.setWidth_eq _)

end Memory

/-! ### What the loads share: the words of opcode 0x03, the address, and the write of what was read -/

/-- A row that fixes the opcode 0x03 and funct3 encodes the load these select (R160; 30_encoding.md R100). -/
theorem encodes_load {p : Word} {i : Reg → Reg → BitVec 12 → Instr} (hp : p &&& 0x0000707F#32 = p)
    (hop : opcodeOf p = 0x03) (hs : ∀ rd rs1 imm, selectLoad (funct3Of p) imm rd rs1 = some (i rd rs1 imm)) :
    Encodes p 0x0000707F fun w => i (rdOf w) (rs1Of w) (imm12Of w) := by
  intro w h
  obtain ⟨hop', h3⟩ := (and_op_funct3_eq_iff hp).1 h
  exact decodeWord_of_load (hop'.trans hop) (by rw [h3, hs])

theorem State.loadAddress_eq_ofInt (s : State) (rs1 : Reg) (imm : BitVec 12) :
    s.loadAddress rs1 imm = BitVec.ofInt 32 ((s.reg rs1).toInt + imm.toInt) :=
  add_iImm_eq_ofInt _ _

/-- Inside memory a load yields the extension of the group at its address (R160). -/
theorem yields_of_load {i : Instr} {n : Width} {e : Word → Word} {rd rs1 : Reg} {imm : BitVec 12} {v : Word}
    {s : State} (hi : exec i s = load n e rd rs1 imm s)
    (hv : (s.loadAddress rs1 imm).toNat + n.bytes ≤ s.config.memSize)
    (hr : e (s.mem.readLE (s.loadAddress rs1 imm).toNat n.bytes) = v) : Yields i rd v s := by
  refine yields_of_exec_eq (hi.trans ?_) hr
  rw [load_of_valid n e rd rs1 imm s hv, writeResult_eq]

/-- A load that extends by the sign yields the signed number of the group it reads (R161, R162). -/
theorem yields_of_load_sext {i : Instr} {n : Width} {rd rs1 : Reg} {imm : BitVec 12} {s : State} {k : Nat}
    {g : BitVec k} (hi : exec i s = load n (sext k) rd rs1 imm s) (hk : k ≤ 32)
    (hv : (s.loadAddress rs1 imm).toNat + n.bytes ≤ s.config.memSize)
    (hg : s.mem.readLE (s.loadAddress rs1 imm).toNat n.bytes = g.setWidth 32) :
    Yields i rd (BitVec.ofInt 32 g.toInt) s :=
  yields_of_load hi hv (by rw [hg, sext_setWidth hk])

/-- A load that extends by zeros yields the unsigned number of the group it reads (R164, R165). -/
theorem yields_of_load_zext {i : Instr} {n : Width} {rd rs1 : Reg} {imm : BitVec 12} {s : State} {k : Nat}
    {g : BitVec k} (hi : exec i s = load n (zext k) rd rs1 imm s) (hk : k ≤ 32)
    (hv : (s.loadAddress rs1 imm).toNat + n.bytes ≤ s.config.memSize)
    (hg : s.mem.readLE (s.loadAddress rs1 imm).toNat n.bytes = g.setWidth 32) :
    Yields i rd (BitVec.ofNat 32 g.toNat) s :=
  yields_of_load hi hv (by rw [hg, zext_setWidth hk])

/-! ### The obligations -/

/-- Settles O27: the byte read, extended by its sign or by zeros; outside memory the access is invalid. -/
theorem byteLoadResults : Obligations.ByteLoadResults := by
  refine ⟨encodes_load (by decide) rfl fun _ _ _ => rfl, encodes_load (by decide) rfl fun _ _ _ => rfl,
    fun rd rs1 imm s => ?_⟩
  simp only [← State.loadAddress_eq_ofInt]
  refine ⟨fun hv => ⟨?_, ?_⟩, fun hv => ⟨?_, ?_⟩⟩
  · exact yields_of_load_sext rfl (by decide) hv (Memory.readLE_byte _ _)
  · exact yields_of_load_zext rfl (by decide) hv (Memory.readLE_byte _ _)
  · exact exec_of_invalid_access (n := .byte) rfl hv
  · exact exec_of_invalid_access (n := .byte) rfl hv

/-- Settles O28: the two bytes read, extended by their sign or by zeros; outside memory the access is invalid. -/
theorem halfwordLoadResults : Obligations.HalfwordLoadResults := by
  refine ⟨encodes_load (by decide) rfl fun _ _ _ => rfl, encodes_load (by decide) rfl fun _ _ _ => rfl,
    fun rd rs1 imm s => ?_⟩
  simp only [← State.loadAddress_eq_ofInt]
  refine ⟨fun hv => ⟨?_, ?_⟩, fun hv => ⟨?_, ?_⟩⟩
  · exact yields_of_load_sext rfl (by decide) hv (Memory.readLE_half _ _)
  · exact yields_of_load_zext rfl (by decide) hv (Memory.readLE_half _ _)
  · exact exec_of_invalid_access (n := .half) rfl hv
  · exact exec_of_invalid_access (n := .half) rfl hv

/-- Settles O29: the four bytes read fill the word; outside memory the access is invalid. -/
theorem wordLoadResult : Obligations.WordLoadResult := by
  refine ⟨encodes_load (by decide) rfl fun _ _ _ => rfl, fun rd rs1 imm s => ?_⟩
  simp only [← State.loadAddress_eq_ofInt]
  exact ⟨fun hv => yields_of_load rfl hv (Memory.readLE_word _ _),
    fun hv => exec_of_invalid_access (n := .word) rfl hv⟩

end Machine

end Sys2Proof
end

section
/-! The stores (43_stores.md R175 to R178): which words they are, what they write, and when they raise. -/

namespace Sys2Proof.Machine

/-! ### What the stores share: the words of opcode 0x23, the address, and the write -/

/-- A row that fixes the opcode 0x23 and funct3 encodes the store these select, with the reassembled offset (R175;
30_encoding.md R95, R100). -/
theorem encodes_store {p : Word} {i : Reg → Reg → Word → Instr} (hp : p &&& 0x0000707F#32 = p)
    (hop : opcodeOf p = 0x23) (hs : ∀ rs2 rs1 off, selectStore (funct3Of p) off rs1 rs2 = some (i rs2 rs1 off)) :
    Encodes p 0x0000707F fun w => i (rs2Of w) (rs1Of w) (storeOffset (hi7Of w) (lo5Of w)) := by
  intro w h
  obtain ⟨hop', h3⟩ := (and_op_funct3_eq_iff hp).1 h
  exact decodeWord_of_store (hop'.trans hop) (by rw [h3, hs])

/-- The address is the sum of the signed numbers modulo 2^32 (R175). -/
theorem State.storeAddress_eq_ofInt (s : State) (rs1 : Reg) (off : Word) :
    s.storeAddress rs1 off = BitVec.ofInt 32 ((s.reg rs1).toInt + off.toInt) := by
  rw [State.storeAddress, BitVec.ofInt_add, BitVec.ofInt_toInt, BitVec.ofInt_toInt]

/-- Inside memory, at any alignment, a store writes its group of bytes and moves the pc, and that is all (R175;
20_memory.md R55). -/
theorem stores_of_store {i : Instr} {n : Width} {rs2 rs1 : Reg} {off : Word} {s : State}
    (hi : exec i s = store n rs2 rs1 off s) (hm : Memory.wf s.mem = true)
    (hv : (s.storeAddress rs1 off).toNat + n.bytes ≤ s.config.memSize) :
    Stores i (s.storeAddress rs1 off) n (s.reg rs2) s := by
  refine ⟨_, hi.trans (store_of_valid n rs2 rs1 off s hv), fun _ => rfl, ?_, rfl, fun k hk => ?_, fun a ha => ?_⟩
  · simp [State.SameRun]
  · exact Memory.read_writeLE_in _ _ _ k _ hm hk
  · exact Memory.read_writeLE_of_out _ _ _ a _ ha

/-! ### The obligation -/

/-- Settles O30: the bytes of the group a valid store writes; outside memory the access is invalid. -/
theorem storeResults : Obligations.StoreResults := by
  refine ⟨encodes_store (by decide) rfl fun _ _ _ => rfl, encodes_store (by decide) rfl fun _ _ _ => rfl,
    encodes_store (by decide) rfl fun _ _ _ => rfl, fun rs2 rs1 off s hm =>
    ⟨s.storeAddress_eq_ofInt rs1 off, fun hv => ?_, fun hv => ?_, fun hv => ?_, fun hv => ?_, fun hv => ?_,
      fun hv => ?_⟩⟩
  · exact stores_of_store rfl hm hv
  · exact stores_of_store rfl hm hv
  · exact stores_of_store rfl hm hv
  · exact exec_of_invalid_access (n := .byte) rfl hv
  · exact exec_of_invalid_access (n := .half) rfl hv
  · exact exec_of_invalid_access (n := .word) rfl hv

end Sys2Proof.Machine
end

section
/-! The branches (44_branches.md R190 to R196): which words they are, and where they go. -/

namespace Sys2Proof.Machine

/-! ### What the branches share: the words of opcode 0x63, the target, and the choice by the test -/

/-- A row that fixes the opcode 0x63 and funct3 encodes the branch these select, with the reassembled offset (R190;
30_encoding.md R96, R100). -/
theorem encodes_branch {p : Word} {i : Reg → Reg → Word → Instr} (hp : p &&& 0x0000707F#32 = p)
    (hop : opcodeOf p = 0x63) (hs : ∀ rs1 rs2 off, selectBranch (funct3Of p) off rs1 rs2 = some (i rs1 rs2 off)) :
    Encodes p 0x0000707F fun w => i (rs1Of w) (rs2Of w) (branchOffset (hi7Of w) (lo5Of w)) := by
  intro w h
  obtain ⟨hop', h3⟩ := (and_op_funct3_eq_iff hp).1 h
  exact decodeWord_of_branch (hop'.trans hop) (by rw [h3, hs])

/-- The target is the pc plus the signed offset, modulo 2^32 (10_state.md R29). -/
theorem pc_add_eq_ofInt (pc off : Word) : pc + off = BitVec.ofInt 32 (pc.toNat + off.toInt) := by
  rw [BitVec.ofInt_add, BitVec.ofInt_natCast, BitVec.ofNat_toNat, BitVec.setWidth_eq, BitVec.ofInt_toInt]

/-- An instruction whose meaning is to set the pc goes there. -/
theorem goes_of_exec_eq {i : Instr} {target : Word} {s : State} (h : exec i s = .next (s.setPc target)) :
    Goes i target s := by
  refine ⟨_, h, fun _ => rfl, fun _ => rfl, ?_, rfl⟩
  simp [State.SameRun]

/-- A branch goes to its target when its test holds, and to the next instruction otherwise (R190). -/
theorem goes_of_branch {i : Instr} {c : Bool} {off : Word} {s : State} {P : Prop} [Decidable P]
    (hi : exec i s = branch c off s) (hc : c = true ↔ P) :
    Goes i (if P then BitVec.ofInt 32 (s.pc.toNat + off.toInt) else s.pc + 4) s := by
  refine goes_of_exec_eq ?_
  rw [hi, branch_eq, pc_add_eq_ofInt]
  simp only [hc]

/-! ### The tests, as relations of the numbers the registers stand for (00_scope.md R17) -/

theorem beq_iff_toNat_eq (a b : Word) : (a == b) = true ↔ a.toNat = b.toNat :=
  beq_iff_eq.trans BitVec.toNat_inj.symm

theorem bne_iff_toNat_ne (a b : Word) : (a != b) = true ↔ ¬ a.toNat = b.toNat :=
  bne_iff_ne.trans (not_congr BitVec.toNat_inj.symm)

theorem ltSigned_iff (a b : Word) : ltSigned a b = true ↔ a.toInt < b.toInt :=
  decide_eq_true_iff

theorem not_ltSigned_iff (a b : Word) : (!ltSigned a b) = true ↔ b.toInt ≤ a.toInt := by
  rw [Bool.not_eq_true', ← Bool.not_eq_true, ltSigned_iff, not_lt]

theorem ltUnsigned_iff (a b : Word) : ltUnsigned a b = true ↔ a.toNat < b.toNat :=
  decide_eq_true_iff

theorem not_ltUnsigned_iff (a b : Word) : (!ltUnsigned a b) = true ↔ b.toNat ≤ a.toNat := by
  rw [Bool.not_eq_true', ← Bool.not_eq_true, ltUnsigned_iff, not_lt]

/-! ### The obligations -/

/-- Settles O32: the tests compare the two registers; BNE has the two targets of BEQ the other way round. -/
theorem equalityBranchTargets : Obligations.EqualityBranchTargets := by
  refine ⟨encodes_branch (by decide) rfl fun _ _ _ => rfl, encodes_branch (by decide) rfl fun _ _ _ => rfl,
    fun rs1 rs2 off s => ⟨?_, ?_⟩⟩
  · exact goes_of_branch rfl (beq_iff_toNat_eq _ _)
  · rw [← ite_not]
    exact goes_of_branch rfl (bne_iff_toNat_ne _ _)

/-- Settles O33: BLT tests the signed order, BGE its negation. -/
theorem signedBranchTargets : Obligations.SignedBranchTargets := by
  refine ⟨encodes_branch (by decide) rfl fun _ _ _ => rfl, encodes_branch (by decide) rfl fun _ _ _ => rfl,
    fun rs1 rs2 off s => ⟨?_, ?_⟩⟩
  · exact goes_of_branch rfl (ltSigned_iff _ _)
  · exact goes_of_branch rfl (not_ltSigned_iff _ _)

/-- Settles O34: BLTU tests the unsigned order, BGEU its negation. -/
theorem unsignedBranchTargets : Obligations.UnsignedBranchTargets := by
  refine ⟨encodes_branch (by decide) rfl fun _ _ _ => rfl, encodes_branch (by decide) rfl fun _ _ _ => rfl,
    fun rs1 rs2 off s => ⟨?_, ?_⟩⟩
  · exact goes_of_branch rfl (ltUnsigned_iff _ _)
  · exact goes_of_branch rfl (not_ltUnsigned_iff _ _)

end Sys2Proof.Machine
end

section
/-! JAL (45_jumps.md R205): which words it has, what it links, and where it goes. -/

namespace Sys2Proof.Machine

/-- The row of JAL fixes the opcode 0x6F alone (R205; 30_encoding.md R97, R100). -/
theorem encodes_jal : Encodes 0x0000006F 0x0000007F fun w => .jal (rdOf w) (jumpOffset (imm20Of w)) :=
  fun _ h => decodeWord_of_jal ((and_op_eq_iff (by decide)).1 h)

/-- The link value is the sum of the numbers modulo 2^32 (R205). -/
theorem State.linkValue_eq_ofNat (s : State) : s.linkValue = BitVec.ofNat 32 (s.pc.toNat + 4) := by
  rw [State.linkValue, BitVec.ofNat_add, BitVec.ofNat_toNat, BitVec.setWidth_eq]
  rfl

theorem State.target_eq_ofInt (s : State) (off : Word) :
    s.target off = BitVec.ofInt 32 (s.pc.toNat + off.toInt) :=
  pc_add_eq_ofInt s.pc off

/-- JAL writes the link value, then the target; both are of the state before it (R205). -/
theorem exec_jal (rd : Reg) (off : Word) (s : State) :
    exec (.jal rd off) s = .next ((s.setReg rd s.linkValue).setPc (s.target off)) :=
  rfl

/-- The destination reads the value written, and x0 reads 0 (10_state.md R23). -/
theorem State.reg_setReg_self (s : State) (rd : Reg) (v : Word) :
    (s.setReg rd v).reg rd = if rd = 0 then 0 else v := by
  by_cases hd : rd = 0
  · simp [hd]
  · simp [State.reg_setReg, hd]

/-- Settles O35: JAL has the frame of an instruction that writes its result, which says nothing of the pc but in its
last clause, and goes to its target. -/
theorem jalLinksAndJumps : Obligations.JalLinksAndJumps := by
  refine ⟨encodes_jal, fun rd off s => ?_⟩
  obtain ⟨hregs, hmem, hrun, -⟩ := s.writesOnly_setReg_setPc rd s.linkValue
  refine ⟨_, exec_jal rd off s, hregs, hmem, hrun, ?_, s.target_eq_ofInt off⟩
  rw [State.setPc_reg, State.reg_setReg_self, State.linkValue_eq_ofNat]

end Sys2Proof.Machine
end

section
/-! LUI (46_upper_immediate.md R215): which words it has, and what it writes. -/

namespace Sys2Proof

/-- Twelve zeros below the field multiply it by 2^12, and the product fits in a word (R215). -/
theorem upperImm_toNat (imm : BitVec 20) : (upperImm imm).toNat = imm.toNat * 4096 := by
  rw [upperImm, BitVec.toNat_append, BitVec.toNat_ofNat, Nat.zero_mod, Nat.or_zero, Nat.shiftLeft_eq]

theorem upperImm_eq_ofNat (imm : BitVec 20) : upperImm imm = BitVec.ofNat 32 (imm.toNat * 4096) := by
  rw [← upperImm_toNat, BitVec.ofNat_toNat, BitVec.setWidth_eq]

namespace Machine

/-- The row of LUI fixes the opcode 0x37 alone (R215; 30_encoding.md R86, R100). -/
theorem encodes_lui : Encodes 0x00000037 0x0000007F fun w => .lui (rdOf w) (imm20Of w) :=
  fun _ h => decodeWord_of_lui ((and_op_eq_iff (by decide)).1 h)

/-- Settles O36: LUI writes the upper immediate as its result, and that is the field times 4096. -/
theorem luiResult : Obligations.LuiResult :=
  ⟨encodes_lui, fun _ imm _ => yields_of_exec_eq rfl (upperImm_eq_ofNat imm)⟩

end Machine

end Sys2Proof
end

section
/-! A step that ends before any fetch (49_fetch_execute_loop.md R248, R250, R254; 70_reset_and_hazards.md R300): reset,
a Halted block, an abort and a spent budget, each with what it leaves. -/

namespace Sys2Proof.Machine

/-! ### The step, case by case -/

theorem step_of_reset {s : State} (ha : s.hostAction = .reset) : step s = .next s.hostTaken.applyReset := by
  simp [step, stepUnder, ha]

theorem step_of_halted {s : State} (hs : s.status = .halted) (ha : s.hostAction ≠ .reset) :
    step s = .next s.hostTaken := by
  cases he : s.hostAction
  case reset => exact absurd he ha
  all_goals simp [step, stepUnder, he, hs]

theorem step_of_abort {s : State} (hs : s.status = .running) (hp : s.phase = .fetch) (ha : s.hostAction = .abort) :
    step s = .next (s.hostTaken.haltWith .externalAbort) := by
  simp [step, stepUnder, ha, hs, runningStep, hp, boundary, HostAction.isAbort]

theorem step_of_spent {s : State} (hs : s.status = .running) (hp : s.phase = .fetch) (ha : s.hostAction = .quiet)
    (hb : s.budgetLeft.spent = true) : step s = .next (s.hostTaken.haltWith .budgetExhausted) := by
  simp [step, stepUnder, ha, hs, runningStep, hp, boundary, hb, HostAction.isAbort]

/-- An abort in the middle of a held step lets it go on (log 20). -/
theorem step_of_held_abort {s : State} (hs : s.status = .running) (hp : s.phase = .tracePrompt)
    (ha : s.hostAction = .abort) : step s = executePhase s.hostTaken := by
  simp [step, stepUnder, ha, hs, runningStep, hp, promptPhase, HostAction.isHold]

/-! ### What is left as it was (60_exceptions.md R271) -/

namespace State

theorem precise_hostTaken (s : State) : s.Precise s.hostTaken :=
  ⟨fun _ => rfl, fun _ => rfl, rfl, rfl, rfl⟩

theorem precise_latched (s : State) (w : Word) : s.Precise (s.latched w) := s.precise_hostTaken

theorem Precise.haltWith {s b : State} (h : s.Precise b) (c : Cause) : s.Precise (b.haltWith c) := h

theorem Precise.takeFault {s b : State} (h : s.Precise b) (f : Fault) : s.Precise (b.takeFault f) := h

theorem hostAction_mem_of_ne_quiet {s : State} (h : s.hostAction ≠ .quiet) : s.hostAction ∈ s.host := by
  unfold hostAction at h ⊢
  cases hh : s.host with
  | nil => simp [hh] at h
  | cons a as => simp

end State

/-! ### The obligations -/

/-- Settles O53: a reset is taken whatever the status, and leaves the registers and the memory of the reset state. -/
theorem resetFromAnyStatus : Obligations.ResetFromAnyStatus :=
  fun _ ha => ⟨_, step_of_reset ha, State.reset_reg, Memory.read_nil, rfl, rfl, rfl⟩

/-- Settles O50, by induction on the number of steps: each consumes one host action and nothing else. -/
theorem haltedStatesNeverChange : Obligations.HaltedStatesNeverChange := by
  intro k
  induction k with
  | zero => intro s _ _; rfl
  | succ k ih =>
    intro s hs hr
    have ha : s.hostAction ≠ .reset := fun he => hr (he ▸ State.hostAction_mem_of_ne_quiet (by simp [he]))
    have hrest : HostAction.reset ∉ s.hostTaken.host := fun hm => hr (List.mem_of_mem_tail hm)
    rw [run_of_next k (step_of_halted hs ha), ih s.hostTaken hs hrest, State.hostTaken_host, List.drop_tail]
    rfl

/-- Settles O55: at a boundary the abort comes first; in a held step the aborted and the released pass both go on with
Execute. -/
theorem abortActsAtStepBoundariesOnly : Obligations.AbortActsAtStepBoundariesOnly := by
  refine ⟨fun s hs hp ha => ?_, fun s hs hp ha => ?_⟩
  · exact ⟨_, step_of_abort hs hp ha, rfl, rfl, s.precise_hostTaken.haltWith _⟩
  · rw [step_of_held_abort hs hp ha, step_of_released (s := { s with host := .quiet :: s.host.tail }) hs hp rfl]
    rfl

end Sys2Proof.Machine
end

section
/-! SYSTEM, OP2A and the unassigned sub-encodings (47_system.md R220 to R222; 48_op2a_unassigned.md R231, R233). -/

namespace Sys2Proof

/-- The low seven bits, as a number, are the opcode (30_encoding.md R81). -/
theorem opcodeOf_eq_of_mod {w : Word} {op : BitVec 7} (h : w.toNat % 128 = op.toNat) : opcodeOf w = op :=
  BitVec.eq_of_toNat_eq ((toNat_opcodeOf w).trans h)

namespace Machine

/-- The row of SYSTEM fixes the opcode 0x73 alone (R220). -/
theorem encodes_system :
    Encodes 0x00000073 0x0000007F fun w => .system (rdOf w) (funct3Of w) (rs1Of w) (imm12Of w) :=
  fun _ h => decodeWord_of_system ((and_op_eq_iff (by decide)).1 h)

theorem exec_system (rd : Reg) (f3 : BitVec 3) (rs1 : Reg) (imm : BitVec 12) (s : State) :
    exec (.system rd f3 rs1 imm) s =
      .next (if s.config.systemHalts then s.advance.haltWith .systemExit else s.advance) :=
  rfl

theorem exec_op2a (rd : Reg) (f3 : BitVec 3) (rs1 rs2 : Reg) (f7 : BitVec 7) (s : State) :
    exec (.op2a rd f3 rs1 rs2 f7) s = .refused .op2aEffectUnspecified :=
  rfl

/-- Settles O38, by the value of SYSTEM_HALTS. -/
theorem systemAdvancesAndExits : Obligations.SystemAdvancesAndExits := by
  intro rd f3 rs1 imm s
  refine ⟨_, exec_system rd f3 rs1 imm s, ?_⟩
  cases s.config.systemHalts with
  | true => exact ⟨fun _ => rfl, fun _ => rfl, rfl, rfl, rfl, rfl, rfl, fun _ => ⟨rfl, rfl⟩, nofun⟩
  | false =>
    exact ⟨fun _ => rfl, fun _ => rfl, rfl, rfl, rfl, rfl, rfl, nofun,
      fun _ => ⟨rfl, rfl, rfl, rfl, rfl, rfl, rfl, rfl, rfl⟩⟩

/-- Settles O39: the step retires what SYSTEM leaves. -/
theorem everyWordOfOpcode73IsSystem : Obligations.EveryWordOfOpcode73IsSystem := by
  refine ⟨encodes_system, fun s w hf hw hop => ?_⟩
  have hi := decodeWord_of_system (opcodeOf_eq_of_mod hop)
  obtain ⟨t, hx, hregs, hmem, hpc, -, hbudget, -, -, hexit, hrun⟩ :=
    systemAdvancesAndExits (rdOf w) (funct3Of w) (rs1Of w) (imm12Of w) (s.latched w)
  refine ⟨t.retire, ?_, fun r => (t.retire_reg r).trans (hregs r), hmem, hpc, congrArg Budget.countDown hbudget,
    t.retire_regs_zero, hexit, fun hc => ?_⟩
  · rw [step_of_instr hf hw hi, hx, settle_next]
  · obtain ⟨-, hstatus, -⟩ := hrun hc
    exact ⟨hstatus.trans hf.1, rfl⟩

/-- Settles O40: the step of a word of opcode 0x2A is OP2A's meaning, a refusal. -/
theorem op2aIsRefused : Obligations.Op2aIsRefused := by
  refine ⟨exec_op2a, fun s w hf hw hop => ?_⟩
  rw [step_of_instr hf hw (decodeWord_of_op2a (opcodeOf_eq_of_mod hop)), exec_op2a, settle_refused]

/-- Settles O41: a word of a recognised opcode that matches no row is of class `unassigned`, which Execute refuses. -/
theorem unassignedSubEncodingsAreRefused : Obligations.UnassignedSubEncodingsAreRefused := by
  intro s w hf hw hrec hno
  obtain ⟨-, hclass⟩ := unassignedExactlyWhenNoRowMatches
  rw [step_of_fetched hf hw]
  exact executePhase_unassigned ((hclass w).2 ⟨hrec, hno⟩)

end Machine

end Sys2Proof
end

section
/-! Fetch and Decode (49_fetch_execute_loop.md R241, R242, R252): the word at the pc, and what the step makes of it. -/

namespace Sys2Proof

/-- Four bytes decode as the word they make (20_memory.md R57). -/
theorem decodeWord_of_decode {b0 b1 b2 b3 : Byte} {i : Instr} (h : decode [b0, b1, b2, b3] = .ok (i, [])) :
    decodeWord (wordOfBytes b0 b1 b2 b3) = .instr i := by
  cases hd : decodeWord (wordOfBytes b0 b1 b2 b3) <;> simp_all [decode]

namespace Machine

/-- A fetch inside memory reads the four bytes at the pc, the first one lowest (R241). -/
theorem State.memRead_pc {s : State} (hv : s.pc.toNat + 4 ≤ s.config.memSize) :
    s.memRead s.pc .word = .ok (wordOfBytes (s.byteAt s.pc.toNat) (s.byteAt (s.pc.toNat + 1))
      (s.byteAt (s.pc.toNat + 2)) (s.byteAt (s.pc.toNat + 3))) := by
  rw [s.memRead_of_valid s.pc .word hv, Memory.readLE_word]
  rfl

/-- Every next state Execute leaves: a fault taken, or an instruction retired (R252). -/
theorem executePhase_next {b t : State} (h : executePhase b = .next t) :
    (∃ f, t = b.takeFault f) ∨ ∃ i u, exec i b = .next u ∧ t = u.retire := by
  cases hd : decodeWord b.ir with
  | instr i =>
    rw [executePhase_instr hd] at h
    cases hx : exec i b with
    | next u =>
      rw [hx] at h
      injection h with h
      exact .inr ⟨i, u, hx, h.symm⟩
    | fault f =>
      rw [hx] at h
      injection h with h
      exact .inl ⟨f, h.symm⟩
    | refused r => rw [hx] at h; cases h
  | unassigned w => rw [executePhase_unassigned hd] at h; cases h
  | illegal w =>
    rw [executePhase_illegal hd] at h
    injection h with h
    exact .inl ⟨_, h.symm⟩

/-- Execute leaves IR as the fetch latched it. -/
theorem executePhase_ir {b t : State} (h : executePhase b = .next t) : t.ir = b.ir := by
  rcases executePhase_next h with ⟨f, rfl⟩ | ⟨i, u, hx, rfl⟩
  · rfl
  · obtain ⟨-, -, -, hir, -⟩ := exec_keeps hx
    exact hir

/-- Settles O42: the step is Execute on the word the four bytes make, outcome by outcome. -/
theorem stepRunsTheDecodedInstruction : Obligations.StepRunsTheDecodedInstruction := by
  intro s i hf hv hd b
  have hstep : step s = settle b (exec i b) := step_of_instr hf (State.memRead_pc hv) (decodeWord_of_decode hd)
  rw [hstep]
  exact ⟨fun t hx => congrArg (settle b) hx, fun f hx => congrArg (settle b) hx, fun r hx => congrArg (settle b) hx⟩

/-- Settles O43, by the two answers of the fetch. -/
theorem fetchReadsTheWordAtThePc : Obligations.FetchReadsTheWordAtThePc := by
  refine fun s hf => ⟨fun t hv h => ?_, fun hv => ?_⟩
  · rw [step_of_fetched hf (State.memRead_pc hv)] at h
    exact executePhase_ir h
  · exact ⟨_, step_of_fetch_fault hf hv, rfl, rfl, rfl, s.precise_hostTaken.takeFault _⟩

end Machine

end Sys2Proof
end

section
/-! The ends of a step from a boundary (49_fetch_execute_loop.md R249, R252; 60_exceptions.md R272): each cause with its
exact condition, in the order in which they are looked for. -/

namespace Sys2Proof.Machine

@[simp] theorem State.latched_ir (s : State) (w : Word) : (s.latched w).ir = w := rfl
@[simp] theorem State.latched_config (s : State) (w : Word) : (s.latched w).config = s.config := rfl
@[simp] theorem dataAccess_latched (s : State) (w : Word) (i : Instr) :
    dataAccess (s.latched w) i = dataAccess s i := rfl

/-- The ends of a step that fetches: the fetch, the opcode, the data access, SYSTEM. -/
theorem haltsWith_atFetch_iff {s : State} (hf : s.AtFetch) (c : Cause) :
    HaltsWith c s ↔
      (c = .memoryAccessError ∧ (s.config.memSize < s.pc.toNat + 4 ∨
        ∃ w i ea n, s.memRead s.pc .word = .ok w ∧ decodeWord w = .instr i ∧ dataAccess s i = some (ea, n) ∧
          s.config.memSize < ea.toNat + n.bytes)) ∨
      (c = .systemExit ∧ s.config.systemHalts = true ∧ ∃ w, s.memRead s.pc .word = .ok w ∧ opcodeOf w = 0x73) ∨
      (c = .decodeError ∧ ∃ w, s.memRead s.pc .word = .ok w ∧ opcodeOf w ∉ recognisedOpcodes) := by
  rw [haltsWith_iff]
  rcases s.memRead_cases s.pc .word with ⟨hv, hm⟩ | ⟨hv, hm⟩
  · have hin : ¬ s.config.memSize < s.pc.toNat + 4 := Nat.not_lt.2 hv
    rw [step_of_fetched hf hm, executePhase_endsWith_iff (b := s.latched _) hf.1]
    simp [hin, hm]
  · have hout : s.config.memSize < s.pc.toNat + 4 := hv
    rw [step_of_fetch_fault hf hv, endsWith_next]
    simp [hout, hm, Fault.cause, eq_comm (a := c)]

/-- Settles O47, by what the step looks for: the abort, then the spent budget, then the ends of a step that fetches. -/
theorem runsEndInExactlyFiveWays : Obligations.RunsEndInExactlyFiveWays := by
  intro s hs hp ha
  rcases ha with ha | ha
  · cases hb : s.budgetLeft.spent with
    | true =>
      have hzero : s.budgetLeft = .bounded 0 := (Budget.spent_iff _).1 hb
      simp [haltsWith_iff, step_of_spent hs hp ha hb, State.AtFetch, Budget.spent, ha, hzero]
    | false =>
      have hne : s.budgetLeft ≠ .bounded 0 := by simp [← Budget.spent_iff, hb]
      simp [haltsWith_atFetch_iff ⟨hs, hp, hb, ha⟩, State.AtFetch, hs, hp, hb, ha, hne]
  · simp [haltsWith_iff, step_of_abort hs hp ha, State.AtFetch, ha]

/-- The nine opcodes in rising order. -/
theorem opcodeOf_recognised_iff_sorted (w : Word) : opcodeOf w ∈ recognisedOpcodes ↔
    w.toNat % 128 ∈ [0x03, 0x13, 0x23, 0x2A, 0x33, 0x37, 0x63, 0x6F, 0x73] :=
  (opcodeOf_recognised_iff w).trans (List.Perm.mem_iff (by decide))

/-- Settles O44: Decode alone raises DecodeError, exactly on the opcodes it does not recognise. -/
theorem unrecognisedOpcodeHalts : Obligations.UnrecognisedOpcodeHalts := by
  intro s w hf hw
  rw [← opcodeOf_recognised_iff_sorted]
  refine ⟨fun hr => ?_, fun hr h => ?_⟩
  · refine ⟨_, (step_of_fetched hf hw).trans (executePhase_illegal ((decodeWord_illegal_iff w).2 hr)), rfl, rfl, rfl, ?_⟩
    exact (s.precise_latched w).takeFault _
  · simp [haltsWith_atFetch_iff hf, hw, hr] at h

end Sys2Proof.Machine
end

section
/-! Faults and the budget (49_fetch_execute_loop.md R248; 60_exceptions.md R271): a fault leaves the state as the step
found it, and only a completed instruction counts. -/

namespace Sys2Proof.Machine

/-! ### Faults -/

theorem State.faulted_iff (s : State) : s.faulted = true ↔ s.status = .halted ∧ s.cause.isFault = true := by
  simp [State.faulted, State.isOver]

theorem Entered.precise {s b : State} (he : Entered s b) : s.Precise b := by
  cases he with
  | fetched _ _ _ _ _ h => rw [h]; exact s.precise_latched _
  | held _ h => rw [h]; exact s.precise_hostTaken

/-- A completed instruction leaves the run as it was or ends it by SYSTEM, which is no fault (47_system.md R222). -/
theorem not_faulted_of_exec {i : Instr} {b u : State} (hs : b.status = .running) (hx : exec i b = .next u) :
    ¬ u.retire.faulted = true := by
  rw [State.faulted_iff, State.retire_status, State.retire_cause]
  obtain ⟨-, -, -, -, ⟨hst, -⟩ | ⟨-, hca, -⟩⟩ := exec_keeps hx
  · simp [hst, hs]
  · simp [hca, Cause.isFault]

/-- A step of a Running block that ends in a fault has changed the run bookkeeping only (60_exceptions.md R271). -/
theorem StepsTo.precise_of_faulted {s t : State} (h : StepsTo s t) (hs : s.status = .running)
    (hfault : t.faulted = true) : s.Precise t := by
  obtain ⟨hhalt, hcause⟩ := (State.faulted_iff t).1 hfault
  cases h with
  | fetchFault _ _ _ _ _ ht => rw [ht]; exact s.precise_hostTaken.takeFault _
  | decodeFault _ _ _ _ _ w _ _ ht => rw [ht]; exact (s.precise_latched w).takeFault _
  | heldIllegal _ _ _ _ ht => rw [ht]; exact s.precise_hostTaken.takeFault _
  | raises b i f _ _ he _ _ ht => rw [ht]; exact he.precise.takeFault f
  | completes b u i _ _ he _ hx ht => exact absurd (ht ▸ hfault) (not_faulted_of_exec (he.status_eq.trans hs) hx)
  | holds b _ _ he ht => simp [ht, he.status_eq, hs] at hhalt
  | reset _ ht => simp [ht] at hhalt
  | launched p _ hs' _ => simp [hs] at hs'
  | rests _ hs' _ => exact absurd hs hs'
  | aborted _ _ _ ht => simp [ht, Cause.isFault] at hcause
  | spent _ _ _ _ ht => simp [ht, Cause.isFault] at hcause

/-- Settles O45, by the cases of a step. -/
theorem faultsArePrecise : Obligations.FaultsArePrecise :=
  fun _ _ hs h hfault => (step_cases h).precise_of_faulted hs hfault

/-! ### The budget -/

/-- A budget that is not spent is unbounded and stays so, or loses 1 (49_fetch_execute_loop.md R248). -/
theorem Budget.countDown_cases {b c : Budget} (hb : b.spent = false) (hc : c = b.countDown) :
    (b = .unbounded ∧ c = .unbounded) ∨ ∃ n, b = .bounded (n + 1) ∧ c = .bounded n := by
  rw [hc]
  cases b with
  | unbounded => exact .inl ⟨rfl, rfl⟩
  | bounded n =>
    cases n with
    | zero => cases hb
    | succ n => exact .inr ⟨n, rfl, rfl⟩

/-- A retired instruction has taken 1 from the budget the step began with. -/
theorem Entered.retire_budgetLeft {i : Instr} {s b u : State} (he : Entered s b) (hx : exec i b = .next u) :
    u.retire.budgetLeft = s.budgetLeft.countDown := by
  obtain ⟨-, hexec, -⟩ := exec_keeps hx
  obtain ⟨-, -, -, hentered, -⟩ := he.precise
  rw [State.retire_budgetLeft, hexec, hentered]

/-- Settles O48: a fault is precise, and everything else a step that fetches does is to retire an instruction. -/
theorem budgetCountsCompletedInstructions : Obligations.BudgetCountsCompletedInstructions := by
  refine ⟨fun s hs hp ha hb => ?_, fun s t hf h => ⟨fun hfault => ?_, fun hnofault => ?_⟩⟩
  · exact ⟨_, step_of_spent hs hp ha ((Budget.spent_iff _).2 hb), rfl, rfl, s.precise_hostTaken.haltWith _⟩
  · obtain ⟨-, -, -, hbudget, -⟩ := faultsArePrecise s t hf.1 h hfault
    exact hbudget
  · rcases (step_cases h).faulted_or_retired hf with hfault | ⟨i, b, u, he, hx, rfl⟩
    · simp [hnofault] at hfault
    · obtain ⟨-, -, hb, -⟩ := hf
      exact Budget.countDown_cases hb (he.retire_budgetLeft hx)

end Sys2Proof.Machine
end

section
/-! Progress (48_op2a_unassigned.md R235; 70_reset_and_hazards.md R322): where a step has a next state, and that a
numeric budget ends the run. -/

namespace Sys2Proof

/-- A safe word decodes to an instruction other than OP2A (30_encoding.md R100). -/
theorem decodeWord_of_safeWord {w : Word} (h : Machine.safeWord w = true) :
    ∃ i, decodeWord w = .instr i ∧ i.mnemonic ≠ "OP2A" := by
  obtain ⟨row, hrow, hsafe⟩ := List.any_eq_true.1 h
  obtain ⟨hhit, hne⟩ : w &&& row.mask = row.pattern ∧ row.mnemonic ≠ "OP2A" := by simpa [Row.hits] using hsafe
  obtain ⟨i, hi, hm⟩ := opcodeTable_decodes hrow w hhit
  exact ⟨i, hi, hm ▸ hne⟩

namespace Machine

/-! ### No refusal -/

/-- An instruction other than OP2A completes or raises, and the step takes either (48_op2a_unassigned.md R231). -/
theorem settle_exec_next {i : Instr} (hi : i.mnemonic ≠ "OP2A") (b : State) : ∃ t, settle b (exec i b) = .next t := by
  cases hx : exec i b with
  | next u => exact ⟨_, settle_next b u⟩
  | fault f => exact ⟨_, settle_fault b f⟩
  | refused r =>
    obtain ⟨⟨rd, f3, rs1, rs2, f7, rfl⟩, -⟩ := exec_refuses hx
    exact absurd rfl hi

/-- Settles O51, in the order of the step: the budget, the fetch, the class of the word. -/
theorem wellFormedWordsAreNeverRefused : Obligations.WellFormedWordsAreNeverRefused := by
  intro s hs hp ha hw
  cases hb : s.budgetLeft.spent with
  | true => exact ⟨_, step_of_spent hs hp ha hb⟩
  | false =>
    have hf : s.AtFetch := ⟨hs, hp, hb, ha⟩
    rcases s.memRead_cases s.pc .word with ⟨-, hm⟩ | ⟨hv, -⟩
    · rcases hw _ hm with hsafe | hillegal
      · obtain ⟨i, hi, hne⟩ := decodeWord_of_safeWord hsafe
        rw [step_of_instr hf hm hi]
        exact settle_exec_next hne _
      · rw [step_of_fetched hf hm]
        exact ⟨_, executePhase_illegal ((decodeWord_illegal_iff _).2 hillegal)⟩
    · exact ⟨_, step_of_fetch_fault hf hv⟩

/-! ### Bounded runs -/

theorem Entered.host_eq {s b : State} (he : Entered s b) : b.host = s.host.tail := by
  cases he <;> subst_vars <;> rfl

/-- Every step consumes one host action (log 8). -/
theorem StepsTo.host_eq {s t : State} (h : StepsTo s t) : t.host = s.host.tail := by
  cases h with
  | reset _ ht => rw [ht]; rfl
  | launched p _ _ ht => rw [(State.launch_next ht).2]; rfl
  | rests _ _ ht => rw [ht]; rfl
  | aborted _ _ _ ht => rw [ht]; rfl
  | spent _ _ _ _ ht => rw [ht]; rfl
  | fetchFault _ _ _ _ _ ht => rw [ht]; rfl
  | decodeFault _ _ _ _ _ w _ _ ht => rw [ht]; rfl
  | holds b _ _ he ht => rw [ht]; exact he.host_eq
  | heldIllegal _ _ _ _ ht => rw [ht]; rfl
  | completes b u i _ _ he _ hx ht =>
    obtain ⟨-, -, hh, -⟩ := exec_keeps hx
    rw [ht, State.retire_host, hh, he.host_eq]
  | raises b i f _ _ he _ _ ht => rw [ht, State.takeFault_host, he.host_eq]

/-- A step that fetches ends the run, or goes on to the next boundary with 1 taken from the budget (R248). -/
theorem StepsTo.over_or_counted {s t : State} (h : StepsTo s t) (hf : s.AtFetch) :
    t.status = .halted ∨ (t.status = .running ∧ t.phase = .fetch ∧ t.budgetLeft = s.budgetLeft.countDown) := by
  rcases h.faulted_or_retired hf with hfault | ⟨i, b, u, he, hx, rfl⟩
  · exact .inl ((State.faulted_iff t).1 hfault).1
  · obtain ⟨-, -, -, -, ⟨hst, -⟩ | ⟨hst, -⟩⟩ := exec_keeps hx
    · exact .inr ⟨hst.trans (he.status_eq.trans hf.1), rfl, he.retire_budgetLeft hx⟩
    · exact .inl hst

/-- A Halted block at which the host asserts nothing is over after any number of steps (R254). -/
theorem run_over_of_halted {s : State} (hs : s.status = .halted) (hh : s.host = []) (k : Nat) :
    ∃ t : State, Host.Core.run core k s = .next t ∧ t.isOver = true :=
  ⟨_, haltedStatesNeverChange k s hs (by simp [hh]), by simp [State.isOver, hs]⟩

/-- Settles O49, by induction on the budget: each step that does not end the run takes 1 from it. -/
theorem boundedRunsEnd : Obligations.BoundedRunsEnd := by
  intro n
  induction n with
  | zero =>
    intro s hs hp hh hb
    have ha : s.hostAction = .quiet := by rw [State.hostAction, hh]; rfl
    exact .inl ⟨_, run_of_next 0 (step_of_spent hs hp ha ((Budget.spent_iff _).2 hb)), rfl⟩
  | succ n ih =>
    intro s hs hp hh hb
    have ha : s.hostAction = .quiet := by rw [State.hostAction, hh]; rfl
    have hf : s.AtFetch := ⟨hs, hp, by rw [hb]; rfl, ha⟩
    cases hstep : step s with
    | fault f => exact absurd hstep (step_ne_fault s f)
    | refused r => exact .inr ⟨r, run_of_refused _ hstep⟩
    | next t =>
      have hhost : t.host = [] := by rw [(step_cases hstep).host_eq, hh]; rfl
      rw [run_of_next _ hstep]
      rcases (step_cases hstep).over_or_counted hf with hover | ⟨hrun, hphase, hbudget⟩
      · exact .inl (run_over_of_halted hover hhost _)
      · exact ih t hrun hphase hhost (hbudget.trans (congrArg Budget.countDown hb))

end Machine

end Sys2Proof
end
